-- ==== Sys2Proof/Word.lean ====
section
/-! DEFINITION. The bit vectors of the unit: register contents, command words and response words
(00_scope.md R6, R7; 30_encoding.md R80, R84). -/

namespace Sys2Proof

/-- A polynomial of degree below 64, bit `i` the coefficient of `x^i` (00_scope.md R6, R14). -/
abbrev Word := BitVec 64

/-- A Product value (00_scope.md R7; 10_state.md R34). -/
abbrev Product := BitVec 128

/-- One command word `CW` (30_encoding.md R80). -/
abbrev CommandWord := BitVec 72

/-- One response word `RW` (30_encoding.md R84). -/
abbrev ResponseWord := BitVec 68

/-- The field `op = CW[71:64]` (30_encoding.md R80). -/
abbrev Opcode := BitVec 8

/-- An error code as it stands in `RW[67:64]` and in `ECODE` (30_encoding.md R84; 10_state.md R45). -/
abbrev ErrorCode := BitVec 4

end Sys2Proof
end

