-- ==== Sys2Proof/Syntax.lean ====
section
/-! DEFINITION. The commands of the unit, one constructor per row of spec/opcode_table.json
(30_encoding.md R90), and the assembler's pseudo-commands (R101). -/

namespace Sys2Proof

/-- The 33 commands of 30_encoding.md R90. A format `D` command carries its 64-bit immediate, the
format `S` command its small immediate as a number, which `Instr.wf` bounds by 64 (R81). -/
inductive Instr where
  /-- `op = 0x00`, format N: nothing (40_transfer.md R111). -/
  | nop
  /-- `op = 0x01`, format N: `ECODE <- 0` (40_transfer.md R112). -/
  | clre
  /-- `op = 0x10`, format D: `A <- imm64` (40_transfer.md R113). -/
  | lda (imm64 : Word)
  /-- `op = 0x11`, format D: `B <- imm64` (40_transfer.md R114). -/
  | ldb (imm64 : Word)
  /-- `op = 0x12`, format D: `M <- imm64` (40_transfer.md R115). -/
  | ldm (imm64 : Word)
  /-- `op = 0x13`, format D: `PR[63:0] <- imm64` (40_transfer.md R116). -/
  | ldpl (imm64 : Word)
  /-- `op = 0x14`, format D: `PR[127:64] <- imm64` (40_transfer.md R117). -/
  | ldph (imm64 : Word)
  /-- `op = 0x18`, format N: `A <- R` (40_transfer.md R118). -/
  | mra
  /-- `op = 0x19`, format N: `B <- R` (40_transfer.md R119). -/
  | mrb
  /-- `op = 0x1A`, format N: `M <- R` (40_transfer.md R120). -/
  | mrm
  /-- `op = 0x1B`, format N: `PR <- zext_128(R)` (40_transfer.md R121). -/
  | mrp
  /-- `op = 0x20`, format N: `rsp(R)` (40_transfer.md R122). -/
  | rdr
  /-- `op = 0x21`, format N: `rsp(A)` (40_transfer.md R123). -/
  | rda
  /-- `op = 0x22`, format N: `rsp(B)` (40_transfer.md R124). -/
  | rdb
  /-- `op = 0x23`, format N: `rsp(M)` (40_transfer.md R125). -/
  | rdm
  /-- `op = 0x24`, format N: `rsp(PR[63:0])` (40_transfer.md R126). -/
  | rdpl
  /-- `op = 0x25`, format N: `rsp(PR[127:64])` (40_transfer.md R127). -/
  | rdph
  /-- `op = 0x26`, format N: `rsp(zext_64(ECODE))` (40_transfer.md R128). -/
  | rdst
  /-- `op = 0x28`, format N: `rsp(FIELD_MOD)` (40_transfer.md R129). -/
  | rdfm
  /-- `op = 0x29`, format N: `rsp(zext_64(FIELD_P))` (40_transfer.md R130). -/
  | rdfp
  /-- `op = 0x2A`, format N: `rsp(zext_64(g))` (40_transfer.md R131). -/
  | rdfg
  /-- `op = 0x40`, format N: `R <- A ^ B` (41_polynomial.md R156). -/
  | padd
  /-- `op = 0x41`, format N: `PR <- clmul(A, B)` (41_polynomial.md R157). -/
  | pmul
  /-- `op = 0x42`, format N: `R <- pmod(PR, M)`, error if `M = 0` (41_polynomial.md R158). -/
  | pred
  /-- `op = 0x43`, format N: `R <- deg(A)` or `DEG_NONE` (41_polynomial.md R159). -/
  | pdeg
  /-- `op = 0x48`, format S: `R <- 1` if `M` is irreducible of degree `p6`, else 0 (42_irreducibility.md R186). -/
  | pirr (p6 : Nat)
  /-- `op = 0x50`, format N: field add (44_field_ops.md R222). -/
  | fadd
  /-- `op = 0x51`, format N: field multiply (44_field_ops.md R224). -/
  | fmul
  /-- `op = 0x52`, format N: field divide (44_field_ops.md R226). -/
  | fdiv
  /-- `op = 0x53`, format N: field inverse (44_field_ops.md R230). -/
  | finv
  /-- `op = 0x54`, format N: field power (44_field_ops.md R232). -/
  | fpow
  /-- `op = 0x58`, format N: `R <- LOG[A]` (44_field_ops.md R234). -/
  | flog
  /-- `op = 0x59`, format N: `R <- ALOG[A]` (44_field_ops.md R235). -/
  | fexp
deriving DecidableEq, Repr

/-- The three formats of 30_encoding.md R81. -/
inductive Format where
  /-- No operand: `imm` must be all zero. -/
  | n
  /-- A 64-bit immediate. -/
  | d
  /-- A small immediate `imm[5:0]`; `imm[63:6]` must be all zero. -/
  | s
deriving DecidableEq, Repr

/-- The pseudo-commands of 30_encoding.md R101. -/
inductive Pseudo where
  /-- `LDPR imm128`: `PR <- imm128`. -/
  | ldpr (imm128 : Product)
  /-- `PMULMOD`: `PMUL` then `PRED`. -/
  | pmulmod
  /-- `RDPR`: the low half of `PR`, then the high half. -/
  | rdpr
deriving DecidableEq, Repr

end Sys2Proof
end

