-- ==== Sys2Proof/WellFormed.lean ====
section
/-! DEFINITION. Which terms of `Instr` are commands of the unit. The check of a configuration is
`FieldConfig.legal` in Machine/FieldBuild.lean, beside the test it is made of. -/

namespace Sys2Proof

/-- The small immediate of PIRR is a 6-bit number, "0 to 63" (30_encoding.md R81); every other
command is well formed by its type. -/
def Instr.wf (i : Instr) : Bool :=
  match i with
  | .pirr p6 => decide (p6 < 64)
  | .lda _ | .ldb _ | .ldm _ | .ldpl _ | .ldph _
  | .nop | .clre | .mra | .mrb | .mrm | .mrp | .rdr | .rda | .rdb
  | .rdm | .rdpl | .rdph | .rdst | .rdfm | .rdfp | .rdfg | .padd | .pmul
  | .pred | .pdeg | .fadd | .fmul | .fdiv | .finv | .fpow | .flog | .fexp => true

end Sys2Proof
end

