-- ==== Sys2Proof/Decode.lean ====
section
/-! DEFINITION. The decoder of command words, total and independent of the state
(30_encoding.md R80 to R83, R89 to R91), and after it the encoder (R80, R81, R90). -/

namespace Sys2Proof

/-- Why a command word selects no command (30_encoding.md R82, R89, R91). Each of them ends with
`ERR_ILLEGAL`. -/
inductive DecodeError where
  /-- `op` is not one of the 33 opcodes (R91). -/
  | reservedOpcode (op : Opcode)
  /-- Format `N` with `imm != 0` (R82). -/
  | nonzeroImmediate (op : Opcode)
  /-- Format `S` with `imm[63:6] != 0` (R82). -/
  | wideImmediate (op : Opcode)
deriving DecidableEq, Repr

/-- What an opcode makes of its immediate: its format (30_encoding.md R81) and its command. -/
inductive CommandShape where
  /-- Format `N`. -/
  | n (i : Instr)
  /-- Format `D`. -/
  | d (command : Word → Instr)
  /-- Format `S`. -/
  | s (command : Nat → Instr)

/-- `op = CW[71:64]` (30_encoding.md R80). -/
def opcodeField (cw : CommandWord) : Opcode := cw.extractLsb' 64 8

/-- `imm = CW[63:0]` (30_encoding.md R80). -/
def immediateField (cw : CommandWord) : Word := cw.extractLsb' 0 64

/-- The opcode map of 30_encoding.md R90; every other value of `op` is reserved (R91). -/
def opcodeMap (op : Opcode) : Option CommandShape :=
  match op with
  | 0x00#8 => some (.n .nop)
  | 0x01#8 => some (.n .clre)
  | 0x10#8 => some (.d .lda)
  | 0x11#8 => some (.d .ldb)
  | 0x12#8 => some (.d .ldm)
  | 0x13#8 => some (.d .ldpl)
  | 0x14#8 => some (.d .ldph)
  | 0x18#8 => some (.n .mra)
  | 0x19#8 => some (.n .mrb)
  | 0x1A#8 => some (.n .mrm)
  | 0x1B#8 => some (.n .mrp)
  | 0x20#8 => some (.n .rdr)
  | 0x21#8 => some (.n .rda)
  | 0x22#8 => some (.n .rdb)
  | 0x23#8 => some (.n .rdm)
  | 0x24#8 => some (.n .rdpl)
  | 0x25#8 => some (.n .rdph)
  | 0x26#8 => some (.n .rdst)
  | 0x28#8 => some (.n .rdfm)
  | 0x29#8 => some (.n .rdfp)
  | 0x2A#8 => some (.n .rdfg)
  | 0x40#8 => some (.n .padd)
  | 0x41#8 => some (.n .pmul)
  | 0x42#8 => some (.n .pred)
  | 0x43#8 => some (.n .pdeg)
  | 0x48#8 => some (.s .pirr)
  | 0x50#8 => some (.n .fadd)
  | 0x51#8 => some (.n .fmul)
  | 0x52#8 => some (.n .fdiv)
  | 0x53#8 => some (.n .finv)
  | 0x54#8 => some (.n .fpow)
  | 0x58#8 => some (.n .flog)
  | 0x59#8 => some (.n .fexp)
  | _ => none

/-- Decode of a command word, "the first thing `step` does" (30_encoding.md R89), with the
immediate assembled as R83 says. -/
def decode (cw : CommandWord) : Except DecodeError Instr :=
  let op := opcodeField cw
  let imm := immediateField cw
  match opcodeMap op with
  | none => .error (.reservedOpcode op)
  | some (.n i) => if imm = 0#64 then .ok i else .error (.nonzeroImmediate op)
  | some (.d command) => .ok (command imm)
  | some (.s command) =>
    if imm.extractLsb' 6 58 = 0#58 then .ok (command (imm.extractLsb' 0 6).toNat)
    else .error (.wideImmediate op)

/-- The opcode of a command (30_encoding.md R90). -/
def Instr.opcode (i : Instr) : Opcode :=
  match i with
  | .nop => 0x00#8
  | .clre => 0x01#8
  | .lda _ => 0x10#8
  | .ldb _ => 0x11#8
  | .ldm _ => 0x12#8
  | .ldpl _ => 0x13#8
  | .ldph _ => 0x14#8
  | .mra => 0x18#8
  | .mrb => 0x19#8
  | .mrm => 0x1A#8
  | .mrp => 0x1B#8
  | .rdr => 0x20#8
  | .rda => 0x21#8
  | .rdb => 0x22#8
  | .rdm => 0x23#8
  | .rdpl => 0x24#8
  | .rdph => 0x25#8
  | .rdst => 0x26#8
  | .rdfm => 0x28#8
  | .rdfp => 0x29#8
  | .rdfg => 0x2A#8
  | .padd => 0x40#8
  | .pmul => 0x41#8
  | .pred => 0x42#8
  | .pdeg => 0x43#8
  | .pirr _ => 0x48#8
  | .fadd => 0x50#8
  | .fmul => 0x51#8
  | .fdiv => 0x52#8
  | .finv => 0x53#8
  | .fpow => 0x54#8
  | .flog => 0x58#8
  | .fexp => 0x59#8

/-- The format of a command (30_encoding.md R81). -/
def Instr.format (i : Instr) : Format :=
  match i with
  | .lda _ | .ldb _ | .ldm _ | .ldpl _ | .ldph _ => .d
  | .pirr _ => .s
  | .nop | .clre | .mra | .mrb | .mrm | .mrp | .rdr | .rda | .rdb
  | .rdm | .rdpl | .rdph | .rdst | .rdfm | .rdfp | .rdfg | .padd | .pmul
  | .pred | .pdeg | .fadd | .fmul | .fdiv | .finv | .fpow | .flog | .fexp => .n

/-- The field `imm` of a command's word (30_encoding.md R81): zero, the immediate, or 58 zero bits
and `p6`. -/
def Instr.immediate (i : Instr) : Word :=
  match i with
  | .lda imm64 | .ldb imm64 | .ldm imm64 | .ldpl imm64 | .ldph imm64 => imm64
  | .pirr p6 => 0#58 ++ BitVec.ofNat 6 p6
  | .nop | .clre | .mra | .mrb | .mrm | .mrp | .rdr | .rda | .rdb
  | .rdm | .rdpl | .rdph | .rdst | .rdfm | .rdfp | .rdfg | .padd | .pmul
  | .pred | .pdeg | .fadd | .fmul | .fdiv | .finv | .fpow | .flog | .fexp => 0#64

/-- The command word `{op, imm}` of a command (30_encoding.md R80). -/
def encode (i : Instr) : CommandWord := i.opcode ++ i.immediate

/-- The command this decoder reads from a word numbered as spec/opcode_table.json numbers it: the
table and `CW` number the 72 bits alike, bit 0 the least significant. -/
def decodeTableWord (nbits w : Nat) : Option Instr :=
  (decode (BitVec.ofNat 72 (w % 2 ^ nbits))).toOption

end Sys2Proof
end

