-- ==== Sys2Proof/Config.lean ====
section
/-! DEFINITION. The configuration of an instance: the pair `(FIELD_MOD, FIELD_P)`
(00_scope.md R8, R9, R11). No other parameter exists, and nothing in the unit is left to chance
(R13), so this file holds no free value. -/

namespace Sys2Proof

/-- The raw pair `(FIELD_MOD, FIELD_P)`. Whether an instance can be built from it is
`FieldConfig.legal` (00_scope.md R9; 43_field_build.md R201). -/
structure FieldConfig where
  /-- `FIELD_MOD`, the field modulus `m` (R9). -/
  modulus : Word
  /-- `FIELD_P`, the field degree `p`, 1 to 63 in a legal pair (R8). -/
  degree : Nat
deriving DecidableEq, Repr

/-- The pair `(0x11B, 8)`, the instance of the spec's vectors (95_test_vectors.md). DESIGN CHOICE
(log entry 2): the spec leaves the pair open (92_eei_decisions.md D2). -/
def FieldConfig.standard : FieldConfig := { modulus := 0x11B#64, degree := 8 }

end Sys2Proof
end

