-- ==== Sys2Proof/Machine/Poly.lean ====
section
/-! DEFINITION. The polynomial functions of 41_polynomial.md and 42_irreducibility.md, on naturals
(00_scope.md R16): bit `i` is the coefficient of `x^i` (R14). The spec's loops are written as
structural recursions with enough turns (log entry 8). -/

namespace Sys2Proof.Machine

/-- `padd(a, b)`, polynomial addition and subtraction (41_polynomial.md R150). -/
def padd {w : Nat} (a b : BitVec w) : BitVec w := a ^^^ b

/-- `deg(v)`: the index of the highest set bit, none for zero (41_polynomial.md R155). -/
def deg (v : Nat) : Option Nat := if v = 0 then none else some v.log2

/-- The value of `r` in the loop of 41_polynomial.md R151 after the turns `i = 0 .. k - 1`. -/
def clmulTurns (a b : Nat) : Nat → Nat
  | 0 => 0
  | i + 1 => if b.testBit i then clmulTurns a b i ^^^ (a <<< i) else clmulTurns a b i

/-- `clmul(a, b)`, the carry-less product (41_polynomial.md R151). The loop runs over every bit of `b`
that can be set, so it is the same function on naturals of any size. -/
def clmul (a b : Nat) : Nat := clmulTurns a b (b.log2 + 1)

/-- At most `fuel` turns of the loop of 41_polynomial.md R153, from the remainder `r`. -/
def pmodTurns (d : Nat) : Nat → Nat → Nat
  | 0, r => r
  | fuel + 1, r =>
    if r ≠ 0 ∧ d.log2 ≤ r.log2 then pmodTurns d fuel (r ^^^ (d <<< (r.log2 - d.log2))) else r

/-- `pmod(n, d)`, the remainder of long division (41_polynomial.md R153). Every turn lowers the
degree (R154 (a)), so `deg(n) + 1` turns are enough. It has a meaning for `d != 0` only and is
called with nothing else (93_implementation_defined.md U1). -/
def pmod (n d : Nat) : Nat := pmodTurns d (n.log2 + 1) n

/-- At most `fuel` turns of Euclid's loop (42_irreducibility.md R180). -/
def pgcdTurns : Nat → Nat → Nat → Nat
  | 0, a, _ => a
  | fuel + 1, a, b => if b = 0 then a else pgcdTurns fuel b (pmod a b)

/-- `pgcd(a, b)` (42_irreducibility.md R180). Every turn lowers the degree of `b`, so `deg(b) + 1`
turns are enough. -/
def pgcd (a b : Nat) : Nat := pgcdTurns (b.log2 + 1) a b

/-- The squaring chain `h[k] = x^(2^k) mod f`, from `h[0] = pmod(x, f)` (42_irreducibility.md
R181). -/
def squareChain (f : Nat) : Nat → Nat
  | 0 => pmod 0b10 f
  | k + 1 => pmod (clmul (squareChain f k) (squareChain f k)) f

/-- `r` is a prime number. -/
def isPrime (r : Nat) : Bool :=
  decide (2 ≤ r) && (List.range r).all fun k => decide (k < 2) || decide (r % k ≠ 0)

/-- The prime divisors of `p`, ascending: the table of 42_irreducibility.md R182. -/
def primeDivisors (p : Nat) : List Nat :=
  (List.range (p + 1)).filter fun r => decide (p % r = 0) && isPrime r

/-- `is_irreducible(f, p)`, Rabin's test with the corner cases of 42_irreducibility.md R185
(R184). -/
def isIrreducible (f p : Nat) : Bool :=
  if p = 0 then false
  else if deg f ≠ some p then false
  else if squareChain f p ≠ squareChain f 0 then false
  else (primeDivisors p).all fun r => pgcd f (squareChain f (p / r) ^^^ squareChain f 0) == 1

end Sys2Proof.Machine
end

