-- ==== Sys2Proof/Machine/FieldBuild.lean ====
section
/-! DEFINITION. The build phase of an instance (43_field_build.md): the check of the pair, the
generator, and the two tables as functions of the pair (93_implementation_defined.md U9; log
entry 7). -/

namespace Sys2Proof

/-- Step 1 of `build`: `1 <= p <= 63` and `is_irreducible(m, p)` (43_field_build.md R201;
00_scope.md R8, R9). -/
def FieldConfig.legal (c : FieldConfig) : Bool :=
  decide (1 ≤ c.degree) && decide (c.degree ≤ 63) &&
    Machine.isIrreducible c.modulus.toNat c.degree

/-- `N = 2^p - 1` (00_scope.md R10). -/
def FieldConfig.n (c : FieldConfig) : Nat := 2 ^ c.degree - 1

/-- `fprod(a, b)`, the product of two residues computed directly (43_field_build.md R202). -/
def FieldConfig.fprod (c : FieldConfig) (a b : Nat) : Nat :=
  Machine.pmod (Machine.clmul a b) c.modulus.toNat

/-- `x^k` by repeated `fprod`, from `x^0 = 1` (43_field_build.md R203, R206). -/
def FieldConfig.power (c : FieldConfig) (x : Nat) : Nat → Nat
  | 0 => 1
  | k + 1 => c.fprod (c.power x k) x

/-- Looks for the first power equal to 1 among the next `fuel` ones, at `acc = x^k`. -/
def FieldConfig.orderFrom (c : FieldConfig) (x : Nat) : Nat → Nat → Nat → Option Nat
  | 0, _, _ => none
  | fuel + 1, k, acc => if acc = 1 then some k else c.orderFrom x fuel (k + 1) (c.fprod acc x)

/-- `order(x)`: the least `k >= 1` with `x^k = 1` (43_field_build.md R203). The group has `N`
elements, so the search goes to `N`. -/
def FieldConfig.order (c : FieldConfig) (x : Nat) : Option Nat := c.orderFrom x c.n 1 x

/-- Looks for the first residue of full order among the next `fuel` ones, from `x` upward. -/
def FieldConfig.generatorFrom (c : FieldConfig) : Nat → Nat → Option Nat
  | 0, _ => none
  | fuel + 1, x => if c.order x = some c.n then some x else c.generatorFrom fuel (x + 1)

/-- `g`: the least `x` with `1 <= x <= N` and `order(x) = N` (43_field_build.md R204). "g is defined
for every legal configuration" (R205); where no instance exists and the search ends without one, the
value 0 stands for it and nothing reads it (log entry 7). -/
def FieldConfig.generator (c : FieldConfig) : Nat := (c.generatorFrom c.n 1).getD 0

/-- `ALOG[i] = g^i` for `0 <= i <= N - 1` (43_field_build.md R206). The table has no entry from `N` on
and 20_memory.md R67 gives such a read no value; the function answers `g^i` there too, the model's
choice, and nothing reads it (DESIGN CHOICE, log entry 7). -/
def FieldConfig.alog (c : FieldConfig) (i : Nat) : Nat := c.power c.generator i

/-- Looks for the first index whose power is `v` among the next `fuel` ones, at `acc = g^i`. -/
def FieldConfig.logFrom (c : FieldConfig) (g v : Nat) : Nat → Nat → Nat → Option Nat
  | 0, _, _ => none
  | fuel + 1, i, acc => if acc = v then some i else c.logFrom g v fuel (i + 1) (c.fprod acc g)

/-- `LOG[v]`: the index `i` below `N` with `ALOG[i] = v` (43_field_build.md R206, R207). The loop of
R206 writes each `LOG[v]` once for a legal pair (R208); outside the range of the table the value 0
stands, the model's choice, and nothing reads it (20_memory.md R67; DESIGN CHOICE, log entry 7). -/
def FieldConfig.log (c : FieldConfig) (v : Nat) : Nat := (c.logFrom c.generator v c.n 0 1).getD 0

namespace Machine

/-- The two address spaces of 20_memory.md R60, both ROM. -/
inductive Rom where
  /-- Index 1 to N. -/
  | log
  /-- Index 0 to N - 1. -/
  | alog
deriving DecidableEq, Repr

/-- `RomRead(LOG, i)` and `RomRead(ALOG, i)` (20_memory.md R66). Outside the two ranges R67 gives it no
value, and it answers what `FieldConfig.log` and `FieldConfig.alog` answer there: 0 and `g^i` (log
entry 7). -/
def romRead (c : FieldConfig) (rom : Rom) (i : Nat) : Nat :=
  match rom with
  | .log => c.log i
  | .alog => c.alog i

end Machine

end Sys2Proof
end

