-- ==== Sys2Proof/Machine/State.lean ====
section
/-! DEFINITION. The state of the unit as plain data: the six registers (10_state.md R30), the command
in flight (70_reset_and_hazards.md R291), the instance's constants, and the host's side of the two
ports (30_encoding.md R94). The unit has no program counter, no flags and no memory it can write
(10_state.md R40, R41; 20_memory.md R63). -/

namespace Sys2Proof.Machine

/-- The four errors of a command (60_exceptions.md R260). -/
inductive Err where
  /-- `ERR_ILLEGAL`, raised by decode (R261). -/
  | illegal
  /-- `ERR_ZMOD`, raised by PRED (R262). -/
  | zmod
  /-- `ERR_DIVZ`, raised by FDIV and FINV (R263). -/
  | divz
  /-- `ERR_RANGE`, raised by the field commands (R264). -/
  | range
deriving DecidableEq, Repr

/-- The two fields of a response word (30_encoding.md R84); `Response.word` lays them out. -/
structure Response where
  /-- `RW[67:64]`: the error code of this command, 0 for success. -/
  err : ErrorCode
  /-- `RW[63:0]`: the value a read command returns, 0 otherwise. -/
  data : Word
deriving DecidableEq, Repr

/-- What the host drives on the input ports in one cycle (30_encoding.md R94; log entry 3). -/
structure PortInput where
  /-- `rst`, active high. -/
  rst : Bool
  /-- `cmd_valid`. -/
  cmdValid : Bool
  /-- `cmd_word`. -/
  cmdWord : CommandWord
  /-- `rsp_ready`. -/
  rspReady : Bool
deriving DecidableEq, Repr

/-- The whole state. `a` to `ecode` are the registers of 10_state.md R30. -/
structure State where
  /-- The instance's constants, which no command and no reset changes (10_state.md R30; log entry 1). -/
  field : FieldConfig
  /-- `A`: first operand (10_state.md R31). -/
  a : Word
  /-- `B`: second operand (R32). -/
  b : Word
  /-- `M`: modulus of PRED, candidate of PIRR (R33). -/
  m : Word
  /-- `PR`: the product register (R34). -/
  pr : Product
  /-- `R`: the result register (R35). -/
  r : Word
  /-- `ECODE`: the first error code since the last clear (R45). -/
  ecode : ErrorCode
  /-- The response not yet delivered: `rsp_valid` is 1 and `cmd_ready` is 0 while there is one
  (30_encoding.md R95). -/
  rsp : Option Response
  /-- What the host does in the next cycles, oldest first; no entry left: the host is silent
  (70_reset_and_hazards.md R302; log entry 4). The model's own field. -/
  inputs : List PortInput
  /-- The responses delivered since the last reset, oldest first (R301; log entry 6). The model's own
  field. -/
  delivered : List Response
deriving DecidableEq, Repr

/-- Why the machine stops. No command faults: the unit's `step` is total (00_scope.md R13) and each
error is a response (60_exceptions.md R266). -/
inductive Fault where
  /-- Raised by `step` before it looks at the host, when no instance can be built from the pair
  `State.field` (43_field_build.md R201, 60_exceptions.md R273). Safe: such hardware does not exist,
  so no claim about it can be proved through a next state. -/
  | invalidModulus
deriving DecidableEq, Repr

/-- Why an instruction has no meaning here. -/
inductive Refusal where
  /-- Raised by `exec`'s arm of an instruction that has no meaning yet. Safe: it stops. No arm raises
  it now: all 33 commands are modelled. -/
  | notModelled (mnemonic : String)
deriving DecidableEq, Repr

/-- What a command or a step ends in. -/
abbrev Result := Host.Outcome State Fault Refusal

/-- `A <- v` (00_scope.md section 6). -/
def State.setA (s : State) (v : Word) : State := { s with a := v }
/-- `B <- v`. -/
def State.setB (s : State) (v : Word) : State := { s with b := v }
/-- `M <- v`. -/
def State.setM (s : State) (v : Word) : State := { s with m := v }
/-- `PR <- v`, all 128 bits. -/
def State.setPr (s : State) (v : Product) : State := { s with pr := v }
/-- `R <- v`. -/
def State.setR (s : State) (v : Word) : State := { s with r := v }
/-- `ECODE <- v`. -/
def State.setEcode (s : State) (v : ErrorCode) : State := { s with ecode := v }
/-- Puts a response on the response port, or empties the port. -/
def State.setRsp (s : State) (v : Option Response) : State := { s with rsp := v }
/-- What the host does from now on. -/
def State.setInputs (s : State) (v : List PortInput) : State := { s with inputs := v }
/-- The response stream so far. -/
def State.setDelivered (s : State) (v : List Response) : State := { s with delivered := v }

/-- The reset state of the instance built from `c`: every register zero, no command in flight
(10_state.md R50; 70_reset_and_hazards.md R291), an empty response stream (R292), and a silent
host. -/
def State.resetOf (c : FieldConfig) : State :=
  { field := c, a := 0#64, b := 0#64, m := 0#64, pr := 0#128, r := 0#64, ecode := 0#4, rsp := none,
    inputs := [], delivered := [] }

/-- The machine right after reset, on the instance of the spec's vectors (log entry 2). -/
def State.reset : State := State.resetOf FieldConfig.standard

end Sys2Proof.Machine
end

