-- ==== Sys2Proof/Machine/Flags.lean ====
section
/-! DEFINITION. The unit has no condition codes (10_state.md R41); the one status it keeps is
`ECODE` (R45). This file holds the error codes and the rule of the latch. -/

namespace Sys2Proof.Machine

/-- The code of an error (60_exceptions.md R260). -/
def errorCode (e : Err) : ErrorCode :=
  match e with
  | .illegal => 1#4
  | .zmod => 2#4
  | .divz => 3#4
  | .range => 4#4

/-- `OK`, the code of success (60_exceptions.md R260). -/
def okCode : ErrorCode := 0#4

/-- `ECODE` after a command that ends in the error `e`: the first error since the last clear stays
(10_state.md R45). -/
def latchError (ecode : ErrorCode) (e : Err) : ErrorCode :=
  if ecode = okCode then errorCode e else ecode

end Sys2Proof.Machine
end

