-- ==== Sys2Proof/Machine/Operands.lean ====
section
/-! DEFINITION. How commands read their operands: the halves of `PR` (10_state.md R34), the range
checks of the field commands (44_field_ops.md R220, R235), and the zero extensions. -/

namespace Sys2Proof.Machine

/-- `PRL = PR[63:0]` (10_state.md R34). -/
def prLow (pr : Product) : Word := pr.extractLsb' 0 64

/-- `PRH = PR[127:64]` (10_state.md R34). -/
def prHigh (pr : Product) : Word := pr.extractLsb' 64 64

/-- `PR = {PRH, PRL}` (20_memory.md R68). -/
def prOfHalves (high low : Word) : Product := high ++ low

/-- `zext_64` of a natural number that fits (00_scope.md section 6). -/
def word (v : Nat) : Word := BitVec.ofNat 64 v

/-- The register value `v` is a field element: `v < 2^p` (44_field_ops.md R220). -/
def isElement (c : FieldConfig) (v : Word) : Bool := decide (v.toNat < 2 ^ c.degree)

/-- `DEG_NONE`, what a register holds for the degree of the zero polynomial (41_polynomial.md R155). -/
def degNone : Word := 0xFFFFFFFFFFFFFFFF#64

end Sys2Proof.Machine
end

