-- ==== Sys2Proof/Machine/Ops.lean ====
section
/-! DEFINITION. The ways a command ends: with success and no data, with data, with a result in `R`,
or in an error (30_encoding.md R84, R85; 60_exceptions.md R266), and the clearing of the status. -/

namespace Sys2Proof.Machine

/-- A command that succeeds and returns no data: response `{0, 0}` (30_encoding.md R85). -/
def complete (s : State) : Result := .next (s.setRsp (some { err := okCode, data := 0#64 }))

/-- `rsp(v)`: a read command returns `v` and changes no register (00_scope.md section 6; 40_transfer.md
R122 to R131). -/
def answer (v : Word) (s : State) : Result := .next (s.setRsp (some { err := okCode, data := v }))

/-- `R <- v` and success: the end of every computing command but PMUL (10_state.md R35). -/
def writeResult (v : Word) (s : State) : Result := complete (s.setR v)

/-- `raise e`: error entry, all of it (60_exceptions.md R266). No register is written, the code is
latched if none was, and the response carries the code with data 0. -/
def raise (e : Err) (s : State) : Result :=
  .next ((s.setEcode (latchError s.ecode e)).setRsp (some { err := errorCode e, data := 0#64 }))

/-- Acknowledging errors: `ECODE <- 0` (60_exceptions.md R268). Nothing was entered, so nothing is
returned from. -/
def clearStatus (s : State) : Result := complete (s.setEcode okCode)

end Sys2Proof.Machine
end

