-- ==== Sys2Proof/Machine/FieldOps.lean ====
section
/-! DEFINITION. The meanings of the field commands of 44_field_ops.md, in the one field of the
instance. The range check comes before the test for a zero divisor (R220; 60_exceptions.md R265). -/

namespace Sys2Proof.Machine

/-- FADD: `R <- A ^ B`; no table is read (44_field_ops.md R222). -/
def execFadd (s : State) : Result :=
  if isElement s.field s.a && isElement s.field s.b then writeResult (s.a ^^^ s.b) s
  else raise .range s

/-- FMUL: 0 if an operand is 0, else `ALOG[(LOG[A] + LOG[B]) mod N]` (R224). -/
def execFmul (s : State) : Result :=
  if isElement s.field s.a && isElement s.field s.b then
    if s.a = 0#64 ∨ s.b = 0#64 then writeResult 0#64 s
    else
      let logs := romRead s.field .log s.a.toNat + romRead s.field .log s.b.toNat
      writeResult (word (romRead s.field .alog (logs % s.field.n))) s
  else raise .range s

/-- FDIV: `ERR_DIVZ` if `B = 0`, 0 if `A = 0`, else `ALOG[(LOG[A] - LOG[B]) mod N]`, the least
non-negative residue of the whole difference (R226; 90_conflicts.md C9). -/
def execFdiv (s : State) : Result :=
  if isElement s.field s.a && isElement s.field s.b then
    if s.b = 0#64 then raise .divz s
    else if s.a = 0#64 then writeResult 0#64 s
    else
      let logs : Int := (romRead s.field .log s.a.toNat : Int) - romRead s.field .log s.b.toNat
      writeResult (word (romRead s.field .alog (logs % (s.field.n : Int)).toNat)) s
  else raise .range s

/-- FINV: `ERR_DIVZ` if `A = 0`, else `ALOG[(N - LOG[A]) mod N]` (R230). -/
def execFinv (s : State) : Result :=
  if isElement s.field s.a then
    if s.a = 0#64 then raise .divz s
    else
      let index := (s.field.n - romRead s.field .log s.a.toNat) % s.field.n
      writeResult (word (romRead s.field .alog index)) s
  else raise .range s

/-- FPOW: `A` to the power `B`, an unsigned number that is not checked. 1 if `B = 0`, else 0 if
`A = 0`, else `ALOG[(LOG[A] * (B mod N)) mod N]` (R232). -/
def execFpow (s : State) : Result :=
  if isElement s.field s.a then
    if s.b = 0#64 then writeResult 1#64 s
    else if s.a = 0#64 then writeResult 0#64 s
    else
      let index := romRead s.field .log s.a.toNat * (s.b.toNat % s.field.n) % s.field.n
      writeResult (word (romRead s.field .alog index)) s
  else raise .range s

/-- FLOG: `R <- LOG[A]`; zero has no logarithm (R234). -/
def execFlog (s : State) : Result :=
  if s.a ≠ 0#64 ∧ isElement s.field s.a then writeResult (word (romRead s.field .log s.a.toNat)) s
  else raise .range s

/-- FEXP: `R <- ALOG[A]` for an index below `N`; the index is not reduced (R235). -/
def execFexp (s : State) : Result :=
  if s.a.toNat < s.field.n then writeResult (word (romRead s.field .alog s.a.toNat)) s
  else raise .range s

end Sys2Proof.Machine
end

