-- ==== Sys2Proof/Machine/Polynomial.lean ====
section
/-! DEFINITION. The meanings of the polynomial commands of 41_polynomial.md and of PIRR
(42_irreducibility.md). None of them looks at the configuration. -/

namespace Sys2Proof.Machine

/-- PADD: `R <- padd(A, B)` (41_polynomial.md R156). -/
def execPadd (s : State) : Result := writeResult (padd s.a s.b) s

/-- PMUL: `PR <- clmul(A, B)`, 128 bits, nothing truncated (R157). -/
def execPmul (s : State) : Result :=
  complete (s.setPr (BitVec.ofNat 128 (clmul s.a.toNat s.b.toNat)))

/-- PRED: `ERR_ZMOD` if `M = 0`, else `R <- pmod(PR, zext_128(M))[63:0]` (R158). -/
def execPred (s : State) : Result :=
  if s.m = 0#64 then raise .zmod s
  else writeResult (word (pmod s.pr.toNat s.m.toNat)) s

/-- PDEG: `R <- deg(A)`, or `DEG_NONE` if `A = 0` (R159). -/
def execPdeg (s : State) : Result :=
  match deg s.a.toNat with
  | none => writeResult degNone s
  | some k => writeResult (word k) s

/-- PIRR: `R <- 1` if `M` is irreducible of degree `p6`, else 0; never an error
(42_irreducibility.md R186). -/
def execPirr (p6 : Nat) (s : State) : Result :=
  if isIrreducible s.m.toNat p6 then writeResult 1#64 s else writeResult 0#64 s

end Sys2Proof.Machine
end

