-- ==== Sys2Proof/Machine/Transfer.lean ====
section
/-! DEFINITION. The meanings of the commands of 40_transfer.md: housekeeping, register writes, moves
and reads. -/

namespace Sys2Proof.Machine

/-- NOP (40_transfer.md R111). -/
def execNop (s : State) : Result := complete s

/-- CLRE: `ECODE <- 0` (R112). -/
def execClre (s : State) : Result := clearStatus s

/-- LDA: `A <- imm64` (R113). -/
def execLda (imm64 : Word) (s : State) : Result := complete (s.setA imm64)

/-- LDB: `B <- imm64` (R114). -/
def execLdb (imm64 : Word) (s : State) : Result := complete (s.setB imm64)

/-- LDM: `M <- imm64` (R115). -/
def execLdm (imm64 : Word) (s : State) : Result := complete (s.setM imm64)

/-- LDPL: `PR[63:0] <- imm64`, the high half unchanged (R116). -/
def execLdpl (imm64 : Word) (s : State) : Result := complete (s.setPr (prOfHalves (prHigh s.pr) imm64))

/-- LDPH: `PR[127:64] <- imm64`, the low half unchanged (R117). -/
def execLdph (imm64 : Word) (s : State) : Result := complete (s.setPr (prOfHalves imm64 (prLow s.pr)))

/-- MRA: `A <- R` (R118). -/
def execMra (s : State) : Result := complete (s.setA s.r)

/-- MRB: `B <- R` (R119). -/
def execMrb (s : State) : Result := complete (s.setB s.r)

/-- MRM: `M <- R` (R120). -/
def execMrm (s : State) : Result := complete (s.setM s.r)

/-- MRP: `PR <- zext_128(R)`, the high half cleared (R121). -/
def execMrp (s : State) : Result := complete (s.setPr (s.r.setWidth 128))

/-- RDR: `rsp(R)` (R122). -/
def execRdr (s : State) : Result := answer s.r s

/-- RDA: `rsp(A)` (R123). -/
def execRda (s : State) : Result := answer s.a s

/-- RDB: `rsp(B)` (R124). -/
def execRdb (s : State) : Result := answer s.b s

/-- RDM: `rsp(M)` (R125). -/
def execRdm (s : State) : Result := answer s.m s

/-- RDPL: `rsp(PR[63:0])` (R126). -/
def execRdpl (s : State) : Result := answer (prLow s.pr) s

/-- RDPH: `rsp(PR[127:64])` (R127). -/
def execRdph (s : State) : Result := answer (prHigh s.pr) s

/-- RDST: `rsp(zext_64(ECODE))`; `ECODE` is not cleared (R128). -/
def execRdst (s : State) : Result := answer (s.ecode.setWidth 64) s

/-- RDFM: `rsp(FIELD_MOD)` (R129). -/
def execRdfm (s : State) : Result := answer s.field.modulus s

/-- RDFP: `rsp(zext_64(FIELD_P))` (R130). -/
def execRdfp (s : State) : Result := answer (word s.field.degree) s

/-- RDFG: `rsp(zext_64(g))` (R131). -/
def execRdfg (s : State) : Result := answer (word s.field.generator) s

end Sys2Proof.Machine
end

