-- ==== Sys2Proof/Machine/Dispatch.lean ====
section
/-! DEFINITION. One arm per command: which meaning it has. -/

namespace Sys2Proof.Machine

def exec (i : Instr) (s : State) : Host.Outcome State Fault Refusal :=
  match i with
  | .nop => Sys2Proof.Machine.execNop s
  | .clre => Sys2Proof.Machine.execClre s
  | .lda imm64 => Sys2Proof.Machine.execLda imm64 s
  | .ldb imm64 => Sys2Proof.Machine.execLdb imm64 s
  | .ldm imm64 => Sys2Proof.Machine.execLdm imm64 s
  | .ldpl imm64 => Sys2Proof.Machine.execLdpl imm64 s
  | .ldph imm64 => Sys2Proof.Machine.execLdph imm64 s
  | .mra => Sys2Proof.Machine.execMra s
  | .mrb => Sys2Proof.Machine.execMrb s
  | .mrm => Sys2Proof.Machine.execMrm s
  | .mrp => Sys2Proof.Machine.execMrp s
  | .rdr => Sys2Proof.Machine.execRdr s
  | .rda => Sys2Proof.Machine.execRda s
  | .rdb => Sys2Proof.Machine.execRdb s
  | .rdm => Sys2Proof.Machine.execRdm s
  | .rdpl => Sys2Proof.Machine.execRdpl s
  | .rdph => Sys2Proof.Machine.execRdph s
  | .rdst => Sys2Proof.Machine.execRdst s
  | .rdfm => Sys2Proof.Machine.execRdfm s
  | .rdfp => Sys2Proof.Machine.execRdfp s
  | .rdfg => Sys2Proof.Machine.execRdfg s
  | .padd => Sys2Proof.Machine.execPadd s
  | .pmul => Sys2Proof.Machine.execPmul s
  | .pred => Sys2Proof.Machine.execPred s
  | .pdeg => Sys2Proof.Machine.execPdeg s
  | .pirr p6 => Sys2Proof.Machine.execPirr p6 s
  | .fadd => Sys2Proof.Machine.execFadd s
  | .fmul => Sys2Proof.Machine.execFmul s
  | .fdiv => Sys2Proof.Machine.execFdiv s
  | .finv => Sys2Proof.Machine.execFinv s
  | .fpow => Sys2Proof.Machine.execFpow s
  | .flog => Sys2Proof.Machine.execFlog s
  | .fexp => Sys2Proof.Machine.execFexp s

end Sys2Proof.Machine
end

