-- ==== Sys2Proof/Machine/Ports.lean ====
section
/-! DEFINITION. The two ports of the unit (30_encoding.md R94, R95), one sampled cycle
(log entry 3), the execution of a command word (R89), and the run of 70_reset_and_hazards.md R301
at the transaction level. -/

namespace Sys2Proof.Machine

/-- The 68 bits of a response (30_encoding.md R84). -/
def Response.word (rw : Response) : ResponseWord := rw.err ++ rw.data

/-- `cmd_ready`: the unit can take a command word. It is 0 while a command is in flight
(30_encoding.md R95) and while `rst` is 1 (70_reset_and_hazards.md R290). -/
def cmdReady (rst : Bool) (s : State) : Bool := !rst && s.rsp.isNone

/-- `rsp_valid`: the unit presents a response word (30_encoding.md R95), never while `rst` is 1
(70_reset_and_hazards.md R290). -/
def rspValid (rst : Bool) (s : State) : Bool := !rst && s.rsp.isSome

/-- `rsp_word`, where `rsp_valid` is 1 (log entry 11). -/
def rspWord (rst : Bool) (s : State) : Option ResponseWord :=
  if rspValid rst s then s.rsp.map Response.word else none

/-- The unit's `step(config, state, CW)` (00_scope.md R13; 30_encoding.md R89): the command the word
selects, or `ERR_ILLEGAL`. -/
def execWord (cw : CommandWord) (s : State) : Result :=
  match decode cw with
  | .ok i => exec i s
  | .error _ => raise .illegal s

/-- The delivery of the pending response, if there is one: the host has it, and the unit is ready for
the next command (30_encoding.md R95). -/
def deliver (s : State) : State :=
  (s.setRsp none).setDelivered (s.delivered ++ s.rsp.toList)

/-- `rst = 1`: the reset state, with a command in flight abandoned and an empty response stream
(70_reset_and_hazards.md R290 to R292). The instance and what the host does next stay. -/
def resetUnit (s : State) : State := (State.resetOf s.field).setInputs s.inputs

/-- One sampled cycle of the ports. A command is accepted where `cmd_valid` and `cmd_ready` are both 1
and `rst` is 0; a response is delivered where `rsp_valid` and `rsp_ready` are both 1
(30_encoding.md R94). -/
def cycle (input : PortInput) (s : State) : Result :=
  if input.rst then .next (resetUnit s)
  else if input.cmdValid && cmdReady input.rst s then execWord input.cmdWord s
  else if rspValid input.rst s && input.rspReady then .next (deliver s)
  else .next s

/-- The cycle in which the host acts next; a silent host leaves the unit idle, all its state kept
(60_exceptions.md R279; 70_reset_and_hazards.md R301, R302). -/
def nextCycle (s : State) : Result :=
  match s.inputs with
  | [] => .next s
  | input :: rest => cycle input (s.setInputs rest)

/-- The host presents the command word `cw` and takes no response. -/
def present (cw : CommandWord) : PortInput :=
  { rst := false, cmdValid := true, cmdWord := cw, rspReady := false }

/-- The host takes a response and presents no command word. -/
def takeResponse : PortInput :=
  { rst := false, cmdValid := false, cmdWord := 0#72, rspReady := true }

/-- The host holds `rst` at 1. -/
def raiseReset : PortInput :=
  { rst := true, cmdValid := false, cmdWord := 0#72, rspReady := false }

/-- A command word accepted, executed, and its response delivered, as one transaction
(70_reset_and_hazards.md R301). -/
def transact (cw : CommandWord) (s : State) : Result :=
  match execWord cw s with
  | .next t => .next (deliver t)
  | .fault f => .fault f
  | .refused f => .refused f

/-- A run: a finite sequence of command words, accepted in that order (70_reset_and_hazards.md
R301). -/
def runWords : List CommandWord → State → Result
  | [], s => .next s
  | cw :: rest, s =>
    match transact cw s with
    | .next t => runWords rest t
    | .fault f => .fault f
    | .refused f => .refused f

end Sys2Proof.Machine
end

