-- ==== Sys2Proof/Machine/Step.lean ====
section
/-! DEFINITION. One step of the machine: one sampled cycle of an instance that exists. -/

namespace Sys2Proof.Machine

/-- One step. Where no instance can be built from the pair, nothing ever runs (43_field_build.md
R201); otherwise the next cycle of the ports. -/
def step (s : State) : Host.Outcome State Fault Refusal :=
  if s.field.legal then nextCycle s else .fault .invalidModulus

/-- `s` with the host about to present the command word whose 72 bits are `w` (numbered as the opcode
table numbers them), and the command port ready for it, so that the next step accepts and runs it.
The unit has no instruction memory (10_state.md R40): this stands for the host (log entry 4). -/
def State.withFetchWord (s : State) (nbits w : Nat) : State :=
  (s.setRsp none).setInputs (present (BitVec.ofNat 72 (w % 2 ^ nbits)) :: s.inputs)

end Sys2Proof.Machine
end

