-- ==== Sys2Proof/Machine/Assembler.lean ====
section
/-! DEFINITION. The assembler of 30_encoding.md R100, its three pseudo-commands (R101) and the text
rendering of a polynomial (R102). They are not functions of the hardware (00_scope.md R5): they say
which command words a program text stands for, and how values are shown. -/

namespace Sys2Proof.Machine

/-- Why a line is no command (30_encoding.md R100): "an assembler error, not a command word". -/
inductive AsmError where
  /-- The first word is no mnemonic of R90 or R101 in upper case. -/
  | unknownMnemonic
  /-- A format `D` or `S` command, or LDPR, without its immediate. -/
  | missingImmediate
  /-- A format `N` command, PMULMOD or RDPR with an operand. -/
  | unexpectedOperand
  /-- The operand is no unsigned literal. -/
  | badLiteral
  /-- A format `D` immediate not below `2^64`, a format `S` immediate not below 64, or an `imm128` not
  below `2^128`. -/
  | literalTooLarge
deriving DecidableEq, Repr

/-- What a mnemonic makes of its operand: the commands it stands for. -/
inductive AsmShape where
  /-- No operand. -/
  | plain (commands : List Instr)
  /-- One immediate below `bound`. -/
  | withImmediate (bound : Nat) (commands : Nat → List Instr)

/-- The expansions of 30_encoding.md R101. -/
def expandPseudo (p : Pseudo) : List Instr :=
  match p with
  | .ldpr imm128 => [.ldpl (imm128.extractLsb' 0 64), .ldph (imm128.extractLsb' 64 64)]
  | .pmulmod => [.pmul, .pred]
  | .rdpr => [.rdpl, .rdph]

/-- The mnemonics that take an immediate (30_encoding.md R90, R101). -/
def immediateMnemonics : List (String × AsmShape) :=
  [("LDA", .withImmediate (2 ^ 64) fun v => [.lda (BitVec.ofNat 64 v)]),
   ("LDB", .withImmediate (2 ^ 64) fun v => [.ldb (BitVec.ofNat 64 v)]),
   ("LDM", .withImmediate (2 ^ 64) fun v => [.ldm (BitVec.ofNat 64 v)]),
   ("LDPL", .withImmediate (2 ^ 64) fun v => [.ldpl (BitVec.ofNat 64 v)]),
   ("LDPH", .withImmediate (2 ^ 64) fun v => [.ldph (BitVec.ofNat 64 v)]),
   ("PIRR", .withImmediate 64 fun v => [.pirr v]),
   ("LDPR", .withImmediate (2 ^ 128) fun v => expandPseudo (.ldpr (BitVec.ofNat 128 v)))]

/-- The mnemonics of the format `N` commands of 40_transfer.md (30_encoding.md R90). -/
def transferMnemonics : List (String × AsmShape) :=
  [("NOP", .plain [.nop]), ("CLRE", .plain [.clre]), ("MRA", .plain [.mra]), ("MRB", .plain [.mrb]),
   ("MRM", .plain [.mrm]), ("MRP", .plain [.mrp]), ("RDR", .plain [.rdr]), ("RDA", .plain [.rda]),
   ("RDB", .plain [.rdb]), ("RDM", .plain [.rdm]), ("RDPL", .plain [.rdpl]), ("RDPH", .plain [.rdph]),
   ("RDST", .plain [.rdst]), ("RDFM", .plain [.rdfm]), ("RDFP", .plain [.rdfp]),
   ("RDFG", .plain [.rdfg])]

/-- The mnemonics of the format `N` commands that compute (30_encoding.md R90), and the
pseudo-commands without an operand (R101). -/
def computeMnemonics : List (String × AsmShape) :=
  [("PADD", .plain [.padd]), ("PMUL", .plain [.pmul]), ("PRED", .plain [.pred]),
   ("PDEG", .plain [.pdeg]), ("FADD", .plain [.fadd]), ("FMUL", .plain [.fmul]),
   ("FDIV", .plain [.fdiv]), ("FINV", .plain [.finv]), ("FPOW", .plain [.fpow]),
   ("FLOG", .plain [.flog]), ("FEXP", .plain [.fexp]),
   ("PMULMOD", .plain (expandPseudo .pmulmod)), ("RDPR", .plain (expandPseudo .rdpr))]

/-- What a mnemonic stands for. -/
def mnemonicShape (mnemonic : List Char) : Option AsmShape :=
  (immediateMnemonics ++ transferMnemonics ++ computeMnemonics).lookup (String.ofList mnemonic)

/-- The value of a digit, up to hexadecimal, in either letter case (log entry 10). -/
def digitValue (c : Char) : Option Nat :=
  if '0' ≤ c ∧ c ≤ '9' then some (c.toNat - '0'.toNat)
  else if 'a' ≤ c ∧ c ≤ 'f' then some (c.toNat - 'a'.toNat + 10)
  else if 'A' ≤ c ∧ c ≤ 'F' then some (c.toNat - 'A'.toNat + 10)
  else none

/-- Reads digits of the base, with `_` between two digits, from the value `acc` (30_encoding.md
R100). -/
def readDigits (base : Nat) : List Char → Bool → Nat → Option Nat
  | [], afterDigit, acc => if afterDigit then some acc else none
  | c :: cs, afterDigit, acc =>
    if c = '_' then if afterDigit then readDigits base cs false acc else none
    else
      match digitValue c with
      | some d => if d < base then readDigits base cs true (acc * base + d) else none
      | none => none

/-- An unsigned literal: hexadecimal with `0x`, binary with `0b`, else decimal (30_encoding.md
R100). -/
def readLiteral (text : List Char) : Option Nat :=
  match text with
  | '0' :: 'x' :: digits => readDigits 16 digits false 0
  | '0' :: 'b' :: digits => readDigits 2 digits false 0
  | digits => readDigits 10 digits false 0

/-- A line without its comment and the blanks before it (30_encoding.md R100; log entry 10). -/
def lineBody (line : List Char) : List Char :=
  ((line.takeWhile (· ≠ ';')).reverse.dropWhile (· = ' ')).reverse

/-- The commands of one line; none for a line that holds no command (30_encoding.md R100, R101). -/
def parseLine (line : List Char) : Except AsmError (List Instr) :=
  let body := lineBody line
  if body = [] then .ok []
  else
    match mnemonicShape (body.takeWhile (· ≠ ' ')), body.dropWhile (· ≠ ' ') with
    | none, _ => .error .unknownMnemonic
    | some (.plain commands), [] => .ok commands
    | some (.plain _), _ :: _ => .error .unexpectedOperand
    | some (.withImmediate _ _), [] => .error .missingImmediate
    | some (.withImmediate bound commands), _ :: literal =>
      match readLiteral literal with
      | none => .error .badLiteral
      | some v => if v < bound then .ok (commands v) else .error .literalTooLarge

/-- The command words of one line, `{op, zext_64(immediate)}` each (30_encoding.md R100). -/
def assembleLine (line : List Char) : Except AsmError (List CommandWord) :=
  (parseLine line).map (List.map encode)

/-- The term of `x^i` (30_encoding.md R102). -/
def renderTerm (i : Nat) : String :=
  if i = 0 then "1" else if i = 1 then "x" else "x^" ++ toString i

/-- The text rendering of a polynomial: its terms in descending degree, joined by " + "
(30_encoding.md R102). -/
def render (v : Nat) : String :=
  if v = 0 then "0"
  else String.intercalate " + " (((List.range (v.log2 + 1)).reverse.filter v.testBit).map renderTerm)

end Sys2Proof.Machine
end

