-- ==== Sys2Proof/Safety.lean ====
section
/-! DEFINITION. What counts as a legal state and a legal response, and which command words a
sequence of cycles hands to the unit. -/

namespace Sys2Proof.Machine

/-- A response the unit can give: a code of 60_exceptions.md R260, and data 0 beside an error
(30_encoding.md R84). -/
def Response.legal (rw : Response) : Bool :=
  decide (rw.err.toNat ≤ 4) && (decide (rw.err = 0#4) || decide (rw.data = 0#64))

/-- The invariant of the unit: `ECODE` holds one of its legal values 0 to 4 (10_state.md R45), and so
does every response pending or delivered. -/
abbrev State.Inv (s : State) : Prop :=
  s.ecode.toNat ≤ 4 ∧ ∀ rw ∈ s.rsp.toList ++ s.delivered, rw.legal = true

/-- The command words accepted in a sequence of cycles without reset. While a command is in flight
(`busy`) the command port is closed, until its response is taken (30_encoding.md R94, R95). -/
def acceptedWords : Bool → List PortInput → List CommandWord
  | _, [] => []
  | true, input :: rest => acceptedWords (!input.rspReady) rest
  | false, input :: rest =>
    if input.cmdValid then input.cmdWord :: acceptedWords true rest else acceptedWords false rest

/-- No cycle of the sequence holds `rst` at 1. -/
def noReset (inputs : List PortInput) : Bool := inputs.all fun input => !input.rst

end Sys2Proof.Machine
end

