-- ==== Sys2Proof/Certificates/Slice0/Obligations.lean ====
section
/-! DEFINITION. The statements for the provers. Each formalises rules of spec/; the docstring names
them. The vocabulary at the top says what a command leaves behind, written out on the fields of the
state and not with the model's own operations. -/

namespace Sys2Proof.Claims

open Sys2Proof.Machine

/-- The state `s` after a success that returns `data` (30_encoding.md R84). -/
def ended (s : State) (data : Word := 0#64) : State :=
  { s with rsp := some { err := 0#4, data := data } }

/-- The state `s` after the error entry of 60_exceptions.md R266 with the code `e`. -/
def failed (e : ErrorCode) (s : State) : State :=
  { s with ecode := if s.ecode = 0#4 then e else s.ecode, rsp := some { err := e, data := 0#64 } }

/-- A format `N` command: its word is `{op, 0}`, and every other immediate is `ERR_ILLEGAL`
(30_encoding.md R81, R82). -/
def NWord (op : Opcode) (i : Instr) : Prop :=
  decode (op ++ 0#64) = .ok i ∧ (∀ s, execWord (op ++ 0#64) s = exec i s) ∧
    ∀ (imm : Word) (s : State), imm ≠ 0#64 → execWord (op ++ imm) s = .next (failed 1#4 s)

/-- A format `D` command: every immediate is legal (30_encoding.md R81). -/
def DWord (op : Opcode) (command : Word → Instr) : Prop :=
  ∀ imm : Word, decode (op ++ imm) = .ok (command imm) ∧
    ∀ s, execWord (op ++ imm) s = exec (command imm) s

/-- A format `N` command that never fails once decoded, and leaves `after s`. -/
def NCommand (op : Opcode) (i : Instr) (after : State → State) : Prop :=
  NWord op i ∧ ∀ s, exec i s = .next (after s)

/-- A format `D` command, which never fails, and leaves `after imm s`. -/
def DCommand (op : Opcode) (command : Word → Instr) (after : Word → State → State) : Prop :=
  DWord op command ∧ ∀ imm s, exec (command imm) s = .next (after imm s)

/-- `v` is a field element of the instance of `s` (44_field_ops.md R220). -/
def inField (s : State) (v : Word) : Prop := v.toNat < 2 ^ s.field.degree

/-- `N` of the instance of `s` (00_scope.md R10). -/
def groupOrder (s : State) : Nat := 2 ^ s.field.degree - 1

/-- The generator found has full order: `order(g) = N`. 43_field_build.md R205 says so of every legal
pair (`Obligations.LegalPairHasGenerator`). -/
def FullOrder (c : FieldConfig) : Prop := c.order c.generator = some (2 ^ c.degree - 1)

/-- The command ends in success with the result `v` in `R`, and changes nothing else. -/
def GivesResult (i : Instr) (s : State) (v : Nat) : Prop :=
  ∃ w : Word, w.toNat = v ∧ exec i s = .next (ended { s with r := w })

/-- On the instance `(0x11B, 8)` of the examples of 44_field_ops.md, `A = a` and `B = b` give
`R = v`. -/
def AesExample (i : Instr) (a b : Word) (v : Nat) : Prop :=
  ∀ s : State, s.field = { modulus := 0x11B#64, degree := 8 } → s.a = a → s.b = b → GivesResult i s v

/-- `v` is the degree of `n`: its highest set bit (41_polynomial.md R155). -/
def IsTopBit (n v : Nat) : Prop := n.testBit v = true ∧ ∀ j, v < j → n.testBit j = false

/-- The registers of 10_state.md R52, `PR` in its two halves. -/
inductive Reg where
  | a | b | m | prl | prh | r | ecode
deriving DecidableEq, Repr

/-- The contents of a register, as a number. -/
def Reg.value (reg : Reg) (s : State) : Nat :=
  match reg with
  | .a => s.a.toNat
  | .b => s.b.toNat
  | .m => s.m.toNat
  | .prl => (s.pr.extractLsb' 0 64).toNat
  | .prh => (s.pr.extractLsb' 64 64).toNat
  | .r => s.r.toNat
  | .ecode => s.ecode.toNat

/-- The entries `r` of the access matrix (10_state.md R52). -/
def readsOf (i : Instr) : List Reg :=
  match i with
  | .mra | .mrb | .mrm | .mrp | .rdr => [.r]
  | .rda | .pdeg | .finv | .flog | .fexp => [.a]
  | .rdb => [.b]
  | .rdm | .pirr _ => [.m]
  | .rdpl => [.prl]
  | .rdph => [.prh]
  | .rdst => [.ecode]
  | .padd | .pmul | .fadd | .fmul | .fdiv | .fpow => [.a, .b]
  | .pred => [.m, .prl, .prh]
  | .nop | .clre | .lda _ | .ldb _ | .ldm _ | .ldpl _ | .ldph _ | .rdfm | .rdfp | .rdfg => []

/-- The entries `w` of the access matrix (10_state.md R52). -/
def writesOf (i : Instr) : List Reg :=
  match i with
  | .clre => [.ecode]
  | .lda _ | .mra => [.a]
  | .ldb _ | .mrb => [.b]
  | .ldm _ | .mrm => [.m]
  | .ldpl _ => [.prl]
  | .ldph _ => [.prh]
  | .mrp | .pmul => [.prl, .prh]
  | .padd | .pred | .pdeg | .pirr _ | .fadd | .fmul | .fdiv | .finv | .fpow | .flog | .fexp => [.r]
  | .nop | .rdr | .rda | .rdb | .rdm | .rdpl | .rdph | .rdst | .rdfm | .rdfp | .rdfg => []

/-- The commands whose response carries data (30_encoding.md R85). -/
def returnsData (i : Instr) : Bool :=
  match i with
  | .rdr | .rda | .rdb | .rdm | .rdpl | .rdph | .rdst | .rdfm | .rdfp | .rdfg => true
  | _ => false

/-- The seven field commands and RDFM, RDFP, RDFG: the commands that look at the instance. -/
def usesInstance (i : Instr) : Bool :=
  match i with
  | .rdfm | .rdfp | .rdfg | .fadd | .fmul | .fdiv | .finv | .fpow | .flog | .fexp => true
  | _ => false

/-- The 33 opcodes of 30_encoding.md R90. -/
def opcodes : List Opcode :=
  [0x00#8, 0x01#8] ++ [0x10#8, 0x11#8, 0x12#8, 0x13#8, 0x14#8] ++ [0x18#8, 0x19#8, 0x1A#8, 0x1B#8] ++
    [0x20#8, 0x21#8, 0x22#8, 0x23#8, 0x24#8, 0x25#8, 0x26#8] ++ [0x28#8, 0x29#8, 0x2A#8] ++
    [0x40#8, 0x41#8, 0x42#8, 0x43#8] ++ [0x48#8] ++
    [0x50#8, 0x51#8, 0x52#8, 0x53#8, 0x54#8] ++ [0x58#8, 0x59#8]

/-- The opcodes of format `N` (30_encoding.md R81). -/
def opcodesN : List Opcode :=
  opcodes.filter fun op => decide (op ∉ [0x10#8, 0x11#8, 0x12#8, 0x13#8, 0x14#8, 0x48#8])

/-- The polynomial `f` has degree `p` at least 1 and no factorisation but the trivial ones, over GF(2)
(00_scope.md, GLOSSARY "Irreducible polynomial"). -/
def IrreducibleOfDegree (f p : Nat) : Prop :=
  1 ≤ p ∧ IsTopBit f p ∧ ∀ a b, clmul a b = f → a = 1 ∨ b = 1

end Sys2Proof.Claims

open Sys2Proof Sys2Proof.Machine Sys2Proof.Claims

/-! ### Reset and the instance -/

/-- 70_reset_and_hazards.md R291, 10_state.md R50: every register is zero, no command is in flight,
on every instance; and `State.reset` is the reset state of a legal one. -/
def Obligations.ResetStateIsAllZero : Prop :=
  (∀ c : FieldConfig, (State.resetOf c).field = c ∧ (State.resetOf c).a = 0#64 ∧
    (State.resetOf c).b = 0#64 ∧ (State.resetOf c).m = 0#64 ∧ (State.resetOf c).pr = 0#128 ∧
    (State.resetOf c).r = 0#64 ∧ (State.resetOf c).ecode = 0#4 ∧ (State.resetOf c).rsp = none) ∧
  ∃ c : FieldConfig, c.legal = true ∧ State.reset = State.resetOf c

/-- 70_reset_and_hazards.md R291, R292: a cycle with `rst = 1` leaves the reset state, whatever was in
flight, accepts no command and presents no response; the instance is not affected. That a step is one
cycle, and the two lists of the model's own, are log entries 3, 4 and 6; the last clause, that
`rsp_word` has no value in that cycle, is the model's choice, log entry 11. -/
def Obligations.ResetCycleAbandonsEverything : Prop :=
  ∀ (s : State) (input : PortInput) (rest : List PortInput), s.field.legal = true →
    s.inputs = input :: rest → input.rst = true →
    step s = .next
      { field := s.field, a := 0#64, b := 0#64, m := 0#64, pr := 0#128, r := 0#64, ecode := 0#4,
        rsp := none, inputs := rest, delivered := [] } ∧
    cmdReady input.rst s = false ∧ rspValid input.rst s = false ∧ rspWord input.rst s = none

/-- 10_state.md R30, 43_field_build.md R209: no step, a reset included, changes the instance or an
entry of its tables. -/
def Obligations.InstanceNeverChanges : Prop :=
  ∀ s t : State, step s = .next t →
    t.field = s.field ∧ ∀ rom index, romRead t.field rom index = romRead s.field rom index

/-- 43_field_build.md R201, 60_exceptions.md R273, 00_scope.md R9: nothing runs on a pair that fails
the check (the model's form of this is log entry 1), and the check fails exactly on a degree outside
1 to 63 or a modulus that the irreducibility test rejects. -/
def Obligations.IllegalPairNeverRuns : Prop :=
  (∀ c : FieldConfig, c.legal = false ↔
    c.degree = 0 ∨ 63 < c.degree ∨ isIrreducible c.modulus.toNat c.degree = false) ∧
  ∀ s : State, s.field.legal = false → step s = .fault .invalidModulus

/-! ### Housekeeping, register writes, moves and reads -/

/-- 40_transfer.md R111, R112. -/
def Obligations.NopAndClreResults : Prop :=
  NCommand 0x00#8 .nop (fun s => ended s) ∧
  NCommand 0x01#8 .clre (fun s => ended { s with ecode := 0#4 })

/-- 40_transfer.md R113, R114, R115. -/
def Obligations.LoadsWriteOperandRegisters : Prop :=
  DCommand 0x10#8 .lda (fun imm s => ended { s with a := imm }) ∧
  DCommand 0x11#8 .ldb (fun imm s => ended { s with b := imm }) ∧
  DCommand 0x12#8 .ldm (fun imm s => ended { s with m := imm })

/-- 40_transfer.md R116, R117: one half of `PR` is the immediate, the other half stays. -/
def Obligations.LoadsWriteHalvesOfProduct : Prop :=
  DWord 0x13#8 .ldpl ∧ DWord 0x14#8 .ldph ∧
  ∀ (imm : Word) (s : State),
    (∃ v : Product, exec (.ldpl imm) s = .next (ended { s with pr := v }) ∧
      v.extractLsb' 0 64 = imm ∧ v.extractLsb' 64 64 = s.pr.extractLsb' 64 64) ∧
    (∃ v : Product, exec (.ldph imm) s = .next (ended { s with pr := v }) ∧
      v.extractLsb' 64 64 = imm ∧ v.extractLsb' 0 64 = s.pr.extractLsb' 0 64)

/-- 40_transfer.md R118, R119, R120, R121. -/
def Obligations.MovesCopyResult : Prop :=
  NCommand 0x18#8 .mra (fun s => ended { s with a := s.r }) ∧
  NCommand 0x19#8 .mrb (fun s => ended { s with b := s.r }) ∧
  NCommand 0x1A#8 .mrm (fun s => ended { s with m := s.r }) ∧
  NCommand 0x1B#8 .mrp (fun s => ended { s with pr := 0#64 ++ s.r })

/-- 40_transfer.md R122 to R128. -/
def Obligations.ReadsReturnRegisters : Prop :=
  NCommand 0x20#8 .rdr (fun s => ended s s.r) ∧
  NCommand 0x21#8 .rda (fun s => ended s s.a) ∧
  NCommand 0x22#8 .rdb (fun s => ended s s.b) ∧
  NCommand 0x23#8 .rdm (fun s => ended s s.m) ∧
  NCommand 0x24#8 .rdpl (fun s => ended s (s.pr.extractLsb' 0 64)) ∧
  NCommand 0x25#8 .rdph (fun s => ended s (s.pr.extractLsb' 64 64)) ∧
  NCommand 0x26#8 .rdst (fun s => ended s (0#60 ++ s.ecode))

/-- 40_transfer.md R129, R130, R131: the constants of the instance, and the corner cases of the three
rules. -/
def Obligations.ReadsReturnInstanceConstants : Prop :=
  NWord 0x28#8 .rdfm ∧ NWord 0x29#8 .rdfp ∧ NWord 0x2A#8 .rdfg ∧
  (∀ s, exec .rdfm s = .next (ended s s.field.modulus)) ∧
  (∀ s, s.field.legal = true →
    (∃ v : Word, v.toNat = s.field.degree ∧ exec .rdfp s = .next (ended s v)) ∧
    (∃ v : Word, v.toNat = s.field.generator ∧ exec .rdfg s = .next (ended s v)) ∧
    IsTopBit s.field.modulus.toNat s.field.degree ∧ 1 ≤ s.field.degree ∧ s.field.degree ≤ 63 ∧
    (s.field.generator = 1 ↔ s.field.degree = 1)) ∧
  ({ modulus := 0x11B#64, degree := 8 } : FieldConfig).generator = 3 ∧
  ({ modulus := 0x13#64, degree := 4 } : FieldConfig).generator = 2

/-! ### The polynomial commands -/

/-- 41_polynomial.md R156: `R <- A ^ B`, bit by bit, and no other register. -/
def Obligations.PaddXorsOperands : Prop :=
  NWord 0x40#8 .padd ∧
  ∀ s, ∃ v : Word, exec .padd s = .next (ended { s with r := v }) ∧
    ∀ i, v.getLsbD i = xor (s.a.getLsbD i) (s.b.getLsbD i)

/-- 41_polynomial.md R157: `PR <- clmul(A, B)`, 128 bits, nothing truncated, with its corner cases. -/
def Obligations.PmulWritesWholeProduct : Prop :=
  NWord 0x41#8 .pmul ∧
  (∀ s, ∃ v : Product, v.toNat = clmul s.a.toNat s.b.toNat ∧
    exec .pmul s = .next (ended { s with pr := v }) ∧ v.getLsbD 127 = false ∧
    (s.a = 0#64 ∨ s.b = 0#64 → v = 0#128) ∧ (s.b = 1#64 → v = s.a.setWidth 128)) ∧
  clmul 0xFFFFFFFFFFFFFFFF 0xFFFFFFFFFFFFFFFF = 0x55555555555555555555555555555555 ∧
  clmul 0x8000000000000000 0x8000000000000000 = 2 ^ 126 ∧
  clmul 0b10011 0b10011 = 0b100000101

/-- 41_polynomial.md R158: `ERR_ZMOD` for a zero modulus, else the remainder, which fits 64 bits, with
the corner cases of the rule. -/
def Obligations.PredReducesProduct : Prop :=
  NWord 0x42#8 .pred ∧
  (∀ s, s.m = 0#64 → exec .pred s = .next (failed 2#4 s)) ∧
  (∀ s, s.m ≠ 0#64 → GivesResult .pred s (pmod s.pr.toNat s.m.toNat)) ∧
  (∀ s, s.m = 1#64 ∨ (s.m ≠ 0#64 ∧ (s.pr = 0#128 ∨ s.pr = s.m.setWidth 128)) → GivesResult .pred s 0) ∧
  (∀ s, ∀ j k, IsTopBit s.pr.toNat j → IsTopBit s.m.toNat k → j < k →
    GivesResult .pred s s.pr.toNat) ∧
  pmod 0b100000101 0b1000000 = 0b101

/-- 41_polynomial.md R159: the index of the highest set bit of `A`, or `DEG_NONE`. -/
def Obligations.PdegFindsTopBit : Prop :=
  NWord 0x43#8 .pdeg ∧
  (∀ s, s.a = 0#64 → exec .pdeg s = .next (ended { s with r := BitVec.allOnes 64 })) ∧
  ∀ s, s.a ≠ 0#64 → ∃ k, k ≤ 63 ∧ IsTopBit s.a.toNat k ∧ GivesResult .pdeg s k

/-- 42_irreducibility.md R186: 1 or 0 in `R`, never an error for a legal word, `ERR_ILLEGAL` for a
word with `imm[63:6] != 0`; the examples of the rule, and the corner cases of R185. -/
def Obligations.PirrAnswersOneOrZero : Prop :=
  (∀ p s, p < 64 → decode (0x48#8 ++ BitVec.ofNat 64 p) = .ok (.pirr p) ∧
    execWord (0x48#8 ++ BitVec.ofNat 64 p) s = exec (.pirr p) s) ∧
  (∀ (imm : Word) s, 64 ≤ imm.toNat → execWord (0x48#8 ++ imm) s = .next (failed 1#4 s)) ∧
  (∀ p s, exec (.pirr p) s =
    .next (ended { s with r := if isIrreducible s.m.toNat p then 1#64 else 0#64 })) ∧
  (∀ p, isIrreducible 0 p = false) ∧ isIrreducible 0x11B 8 = true ∧
  isIrreducible 0x11B 7 = false ∧ isIrreducible 0x11A 8 = false ∧
  (∀ f, isIrreducible f 0 = false) ∧ (∀ f p, ¬ IsTopBit f p → isIrreducible f p = false) ∧
  isIrreducible 0b10 1 = true ∧ isIrreducible 0b11 1 = true

/-! ### The field commands -/

/-- 44_field_ops.md R222. -/
def Obligations.FaddXorsElements : Prop :=
  NWord 0x50#8 .fadd ∧
  ∀ s, (¬ (inField s s.a ∧ inField s s.b) → exec .fadd s = .next (failed 4#4 s)) ∧
    (inField s s.a → inField s s.b →
      exec .fadd s = .next (ended { s with r := s.a ^^^ s.b }) ∧ inField s (s.a ^^^ s.b)) ∧
    (s.field = { modulus := 0x11B#64, degree := 8 } → s.a = 0x57#64 → s.b = 0x83#64 →
      GivesResult .fadd s 0xD4)

/-- 44_field_ops.md R224, with its corner case `B = 1` and its example. `FullOrder` is what
43_field_build.md R205 says of every legal pair. -/
def Obligations.FmulAddsLogarithms : Prop :=
  NWord 0x51#8 .fmul ∧
  ∀ s, s.field.legal = true →
    (¬ (inField s s.a ∧ inField s s.b) → exec .fmul s = .next (failed 4#4 s)) ∧
    (inField s s.a → inField s s.b → s.a = 0#64 ∨ s.b = 0#64 → GivesResult .fmul s 0) ∧
    (inField s s.a → inField s s.b → s.a ≠ 0#64 → s.b ≠ 0#64 →
      GivesResult .fmul s (romRead s.field .alog
        ((romRead s.field .log s.a.toNat + romRead s.field .log s.b.toNat) % groupOrder s))) ∧
    (FullOrder s.field → inField s s.a → s.b = 1#64 → GivesResult .fmul s s.a.toNat) ∧
    AesExample .fmul 0x57#64 0x83#64 0xC1

/-- 44_field_ops.md R226. The index is the one number below `N` that differs from
`LOG[A] - LOG[B]` by a multiple of `N`. With the corner cases and the examples of the rule. -/
def Obligations.FdivSubtractsLogarithms : Prop :=
  NWord 0x52#8 .fdiv ∧
  ∀ s, s.field.legal = true →
    (¬ (inField s s.a ∧ inField s s.b) → exec .fdiv s = .next (failed 4#4 s)) ∧
    (inField s s.a → s.b = 0#64 → exec .fdiv s = .next (failed 3#4 s)) ∧
    (inField s s.b → s.a = 0#64 → s.b ≠ 0#64 → GivesResult .fdiv s 0) ∧
    (inField s s.a → inField s s.b → s.a ≠ 0#64 → s.b ≠ 0#64 →
      ∃ index : Nat, index < groupOrder s ∧
        (∃ turns : Int, (index : Int) = romRead s.field .log s.a.toNat -
          romRead s.field .log s.b.toNat + turns * groupOrder s) ∧
        GivesResult .fdiv s (romRead s.field .alog index)) ∧
    (inField s s.a → s.a ≠ 0#64 → s.b = s.a → GivesResult .fdiv s 1) ∧
    (FullOrder s.field → inField s s.a → s.b = 1#64 → GivesResult .fdiv s s.a.toNat) ∧
    AesExample .fdiv 0xC1#64 0x83#64 0x57 ∧ AesExample .fdiv 0x2#64 0x3#64 0xF7 ∧
    AesExample .fdiv 0x1#64 0x2#64 0x8D

/-- 44_field_ops.md R230. -/
def Obligations.FinvNegatesLogarithm : Prop :=
  NWord 0x53#8 .finv ∧
  ∀ s, s.field.legal = true →
    (¬ inField s s.a → exec .finv s = .next (failed 4#4 s)) ∧
    (s.a = 0#64 → exec .finv s = .next (failed 3#4 s)) ∧
    (inField s s.a → s.a ≠ 0#64 →
      GivesResult .finv s (romRead s.field .alog
        ((groupOrder s - romRead s.field .log s.a.toNat) % groupOrder s))) ∧
    (s.a = 1#64 → GivesResult .finv s 1) ∧
    (∀ b, AesExample .finv 0x53#64 b 0xCA ∧ AesExample .finv 0x2#64 b 0x8D)

/-- 44_field_ops.md R232: the exponent is any 64-bit number; `0^0 = 1`; with the corner cases and the
examples of the rule. -/
def Obligations.FpowMultipliesLogarithm : Prop :=
  NWord 0x54#8 .fpow ∧
  ∀ s, s.field.legal = true →
    (¬ inField s s.a → exec .fpow s = .next (failed 4#4 s)) ∧
    (inField s s.a → s.b = 0#64 → GivesResult .fpow s 1) ∧
    (s.a = 0#64 → s.b ≠ 0#64 → GivesResult .fpow s 0) ∧
    (inField s s.a → s.a ≠ 0#64 → s.b ≠ 0#64 →
      GivesResult .fpow s (romRead s.field .alog
        (romRead s.field .log s.a.toNat * (s.b.toNat % groupOrder s) % groupOrder s))) ∧
    (FullOrder s.field → inField s s.a → s.b = 1#64 → GivesResult .fpow s s.a.toNat) ∧
    (inField s s.a → s.a ≠ 0#64 → s.b.toNat = groupOrder s → GivesResult .fpow s 1) ∧
    (s.field.degree = 1 → s.a = 1#64 → GivesResult .fpow s 1) ∧
    AesExample .fpow 0x2#64 8#64 0x1B ∧ AesExample .fpow 0x57#64 256#64 0x57

/-- 44_field_ops.md R234, R235: one entry of a table, or `ERR_RANGE` outside it, with the corner
cases and the examples of the rules. -/
def Obligations.TableReadsReturnEntries : Prop :=
  NWord 0x58#8 .flog ∧ NWord 0x59#8 .fexp ∧
  ∀ s, s.field.legal = true →
    (s.a = 0#64 ∨ ¬ inField s s.a → exec .flog s = .next (failed 4#4 s)) ∧
    (s.a ≠ 0#64 → inField s s.a →
      GivesResult .flog s (romRead s.field .log s.a.toNat) ∧
        romRead s.field .log s.a.toNat < groupOrder s) ∧
    (groupOrder s ≤ s.a.toNat → exec .fexp s = .next (failed 4#4 s)) ∧
    (s.a.toNat < groupOrder s →
      GivesResult .fexp s (romRead s.field .alog s.a.toNat) ∧
        romRead s.field .alog s.a.toNat < 2 ^ s.field.degree ∧
        (FullOrder s.field → 1 ≤ romRead s.field .alog s.a.toNat)) ∧
    (s.a = 1#64 → GivesResult .flog s 0) ∧ (s.a = 0#64 → GivesResult .fexp s 1) ∧
    (FullOrder s.field → 2 ≤ s.field.degree → s.a.toNat = s.field.generator →
      GivesResult .flog s 1) ∧
    (∀ b, AesExample .flog 0x2#64 b 25 ∧ AesExample .flog 0x3#64 b 1 ∧
      AesExample .fexp 7#64 b 0xFF ∧ AesExample .fexp 254#64 b 0xF6)

/-! ### Errors and the status register -/

/-- 60_exceptions.md R266: whichever command word ends in an error, it writes no register, latches
its code if none was, and returns the code with data 0. -/
def Obligations.ErrorWritesNothingButStatus : Prop :=
  ∀ (cw : CommandWord) (s t : State) (rw : Response), execWord cw s = .next t → t.rsp = some rw →
    rw.err ≠ 0#4 → t = failed rw.err s ∧ rw.err.toNat ≤ 4

/-- 60_exceptions.md R260 to R265: which command reports which error, in every state and for every
word; the order of R265 where two apply. -/
def Obligations.ErrorCausesAndPriority : Prop :=
  ∀ (cw : CommandWord) (s t : State) (rw : Response), execWord cw s = .next t → t.rsp = some rw →
    (rw.err = 1#4 ↔ ∀ i, decode cw ≠ .ok i) ∧
    (rw.err = 2#4 ↔ decode cw = .ok .pred ∧ s.m = 0#64) ∧
    (rw.err = 3#4 ↔
      (decode cw = .ok .fdiv ∧ inField s s.a ∧ s.b = 0#64) ∨ (decode cw = .ok .finv ∧ s.a = 0#64)) ∧
    (rw.err = 4#4 ↔
      (decode cw ∈ [.ok .fadd, .ok .fmul, .ok .fdiv] ∧ ¬ (inField s s.a ∧ inField s s.b)) ∨
      (decode cw ∈ [.ok .finv, .ok .fpow] ∧ ¬ inField s s.a) ∨
      (decode cw = .ok .flog ∧ (s.a = 0#64 ∨ ¬ inField s s.a)) ∨
      (decode cw = .ok .fexp ∧ groupOrder s ≤ s.a.toNat)) ∧
    rw.err.toNat ≤ 4

/-- 60_exceptions.md R268, 10_state.md R45: `ECODE` after any command word: CLRE clears it, the first
error is latched, a later error returns its own code and leaves it. -/
def Obligations.StatusHoldsFirstError : Prop :=
  ∀ (cw : CommandWord) (s t : State) (rw : Response), execWord cw s = .next t → t.rsp = some rw →
    (decode cw = .ok .clre → t = ended { s with ecode := 0#4 }) ∧
    (decode cw ≠ .ok .clre → t.ecode = if s.ecode = 0#4 then rw.err else s.ecode)

/-- 60_exceptions.md R267: an error never stops the unit, and a non-zero `ECODE` changes no result:
with another `ECODE` the same word leaves the same registers and, RDST apart, the same response. -/
def Obligations.StatusBlocksNothing : Prop :=
  ∀ (cw : CommandWord) (s : State) (code : ErrorCode), ∃ t u : State,
    execWord cw s = .next t ∧ execWord cw { s with ecode := code } = .next u ∧
    t = { u with ecode := t.ecode, rsp := t.rsp } ∧
    (decode cw ≠ .ok .rdst → t.rsp = u.rsp)

/-- 00_scope.md R13: for every instance, state and command word, one next state and one response; the
host's side is not touched. -/
def Obligations.EveryWordAnswers : Prop :=
  ∀ (cw : CommandWord) (s : State), ∃ (t : State) (rw : Response),
    execWord cw s = .next t ∧ t.rsp = some rw ∧
    t.field = s.field ∧ t.inputs = s.inputs ∧ t.delivered = s.delivered

/-- 30_encoding.md R84, R85: the fields of the response word, and which commands return data. -/
def Obligations.ResponseWordFields : Prop :=
  (∀ rw : Response, rw.word.extractLsb' 64 4 = rw.err ∧ rw.word.extractLsb' 0 64 = rw.data) ∧
  ∀ (cw : CommandWord) (s t : State) (rw : Response), execWord cw s = .next t → t.rsp = some rw →
    rw.data ≠ 0#64 → rw.err = 0#4 ∧ ∃ i, decode cw = .ok i ∧ returnsData i = true

/-- 10_state.md R52, the access matrix. (1) A command that fails, or is no command, writes at most
`ECODE`; (2) a command that succeeds leaves every register alone that the matrix does not let it
write; (3) its response and what it writes depend only on the registers the matrix lets it read (and
on the instance). -/
def Obligations.AccessMatrix : Prop :=
  (∀ (cw : CommandWord) (s t : State) (rw : Response) (reg : Reg), execWord cw s = .next t →
    t.rsp = some rw → rw.err ≠ 0#4 → reg ≠ .ecode → reg.value t = reg.value s) ∧
  (∀ (i : Instr) (s t : State) (rw : Response) (reg : Reg), exec i s = .next t →
    t.rsp = some rw → rw.err = 0#4 → reg ∉ writesOf i → reg.value t = reg.value s) ∧
  ∀ (i : Instr) (s s' t t' : State), s.field = s'.field →
    (∀ reg ∈ readsOf i, reg.value s = reg.value s') →
    exec i s = .next t → exec i s' = .next t' →
    t.rsp = t'.rsp ∧ ∀ rw, t.rsp = some rw → rw.err = 0#4 →
      ∀ reg ∈ writesOf i, reg.value t = reg.value t'

/-- 42_irreducibility.md R186, 10_state.md R33: every command but RDFM, RDFP, RDFG and the seven field
commands gives the same result on every instance. -/
def Obligations.OtherCommandsIgnoreInstance : Prop :=
  ∀ (i : Instr) (s : State) (c : FieldConfig), usesInstance i = false →
    ∃ t, exec i s = .next t ∧ exec i { s with field := c } = .next { t with field := c }

/-- 10_state.md R45, 60_exceptions.md R260: a step, from any state that meets the invariant, keeps
`ECODE` and all responses at legal values. -/
def Obligations.LegalCodesInvariant : Prop :=
  ∀ s t : State, s.Inv → step s = .next t → t.Inv

/-- The invariant holds at reset. -/
def Obligations.LegalCodesAtReset : Prop := State.reset.Inv

/-! ### Encoding -/

/-- 30_encoding.md R80, R81, R90: decoding the word of a well-formed command gives it back. -/
def Obligations.DecodeEncodeRoundTrip : Prop :=
  ∀ i : Instr, i.wf = true → decode (encode i) = .ok i

/-- 30_encoding.md R89: a word that selects a command is the word of that command, and the command is
well formed; so each word has one meaning and no bit of it is ignored. -/
def Obligations.DecodedWordIsTheEncoding : Prop :=
  ∀ (cw : CommandWord) (i : Instr), decode cw = .ok i → i.wf = true ∧ encode i = cw

/-- 30_encoding.md R82, R91: a reserved `op` is illegal whatever its `imm`, and 223 of the 256 values
are reserved; so are reserved immediate bits that are not zero. -/
def Obligations.IllegalCommandWords : Prop :=
  (∀ (op : Opcode) (imm : Word) (s : State), op ∉ opcodes →
    decode (op ++ imm) = .error (.reservedOpcode op) ∧
    execWord (op ++ imm) s = .next (failed 1#4 s)) ∧
  ((List.range 256).filter fun k => decide (BitVec.ofNat 8 k ∉ opcodes)).length = 223 ∧
  (∀ (op : Opcode) (imm : Word) (s : State), op ∈ opcodesN → imm ≠ 0#64 →
    execWord (op ++ imm) s = .next (failed 1#4 s)) ∧
  ∀ (imm : Word) (s : State), imm.extractLsb' 6 58 ≠ 0#58 →
    execWord (0x48#8 ++ imm) s = .next (failed 1#4 s)

/-- 30_encoding.md R90: one word of each family, written out. -/
def Obligations.WrittenOutWordsDecode : Prop :=
  decode 0x010000000000000000#72 = .ok .clre ∧
  decode 0x12FEDCBA9876543210#72 = .ok (.ldm 0xFEDCBA9876543210#64) ∧
  decode 0x1B0000000000000000#72 = .ok .mrp ∧ decode 0x2A0000000000000000#72 = .ok .rdfg ∧
  decode 0x420000000000000000#72 = .ok .pred ∧ decode 0x48000000000000003F#72 = .ok (.pirr 63) ∧
  decode 0x540000000000000000#72 = .ok .fpow ∧
  decode 0x480000000000000040#72 = .error (.wideImmediate 0x48#8)

/-! ### The ports and the run -/

/-- 30_encoding.md R89, R94: in a cycle in which a word is presented and the unit is ready, the step
is the decoded command's meaning, or `ERR_ILLEGAL`, on the state with that cycle behind it. -/
def Obligations.StepRunsDecodedCommand : Prop :=
  ∀ (s : State) (input : PortInput) (rest : List PortInput), s.field.legal = true →
    s.inputs = input :: rest → input.rst = false → input.cmdValid = true → s.rsp = none →
    cmdReady input.rst s = true ∧
    (∀ i, decode input.cmdWord = .ok i → step s = exec i { s with inputs := rest }) ∧
    (∀ e, decode input.cmdWord = .error e → step s = .next (failed 1#4 { s with inputs := rest }))

/-- 30_encoding.md R95: while a response is pending no command word is accepted; the response is
presented unchanged until a cycle in which the host takes it, and then it is delivered, once, and the
unit is ready. -/
def Obligations.PendingResponseBlocksPort : Prop :=
  ∀ (s : State) (input : PortInput) (rest : List PortInput) (rw : Response),
    s.field.legal = true → s.inputs = input :: rest → input.rst = false → s.rsp = some rw →
    cmdReady input.rst s = false ∧ rspWord input.rst s = some rw.word ∧
    step s = .next
      (if input.rspReady then
        { s with inputs := rest, rsp := none, delivered := s.delivered ++ [rw] }
      else { s with inputs := rest })

/-- 70_reset_and_hazards.md R301, 60_exceptions.md R279: a host that does nothing leaves the unit
idle, all its state kept: no cycle left to come, or a cycle in which it drives nothing. -/
def Obligations.SilentHostLeavesUnitIdle : Prop :=
  ∀ s : State, s.field.legal = true →
    (s.inputs = [] → step s = .next s) ∧
    ∀ input rest, s.inputs = input :: rest → input.rst = false → input.cmdValid = false →
      s.rsp = none → step s = .next { s with inputs := rest }

/-- 70_reset_and_hazards.md R300: a host that never takes a response stalls the unit for ever,
whatever it presents. -/
def Obligations.UntakenResponseStallsUnit : Prop :=
  ∀ (s : State) (rw : Response), s.field.legal = true → s.rsp = some rw →
    noReset s.inputs = true → (∀ input ∈ s.inputs, input.rspReady = false) →
    Host.Core.run core s.inputs.length s = .next { s with inputs := [] }

/-- 30_encoding.md R95, 70_reset_and_hazards.md R301: however the host spreads its words and its
taking of responses over the cycles, the registers and the response stream are those of the run of
R301 on the words that were accepted, once the last response is taken. A step as one cycle, the list
of cycles and the response stream are the model's form (log entries 3, 4 and 6); a word that the host
withdraws before it is accepted leaves no trace (log entry 5). -/
def Obligations.HandshakeRefinesRun : Prop :=
  ∀ s : State, s.field.legal = true → s.rsp = none → noReset s.inputs = true →
    ∃ t, Host.Core.run core s.inputs.length s = .next t ∧ t.inputs = [] ∧
      runWords (acceptedWords false s.inputs) { s with inputs := [] } = .next (deliver t)

/-! ### Polynomial functions -/

/-- 41_polynomial.md R151: the closed form, bit by bit, and the loop of the rule for 64-bit operands. -/
def Obligations.ClmulClosedForm : Prop :=
  (∀ a b k : Nat, (clmul a b).testBit k =
    (List.range (k + 1)).foldl (fun acc i => xor acc (a.testBit (k - i) && b.testBit i)) false) ∧
  ∀ a b : Nat, b < 2 ^ 64 →
    clmul a b = (List.range 64).foldl (fun r i => if b.testBit i then r ^^^ (a <<< i) else r) 0

/-- 41_polynomial.md R152. -/
def Obligations.ClmulDegreeLaw : Prop :=
  (∀ a b j k, IsTopBit a j → IsTopBit b k → IsTopBit (clmul a b) (j + k)) ∧
  (∀ a, clmul a 0 = 0 ∧ clmul 0 a = 0 ∧ clmul a 1 = a ∧ clmul a 2 = a <<< 1) ∧
  ∀ a b : Nat, a < 2 ^ 64 → b < 2 ^ 64 → clmul a b < 2 ^ 127

/-- 41_polynomial.md R153: `pmod` is the loop of the rule, whatever the size of its operands. -/
def Obligations.PmodFollowsLoop : Prop :=
  ∀ n d j : Nat, IsTopBit d j →
    (∀ k, IsTopBit n k → j ≤ k → pmod n d = pmod (n ^^^ (d <<< (k - j))) d) ∧
    (n = 0 ∨ (∃ k, IsTopBit n k ∧ k < j) → pmod n d = n)

/-- 41_polynomial.md R154, laws (a) to (g). -/
def Obligations.PmodLaws : Prop :=
  ∀ d j : Nat, IsTopBit d j →
    (∀ n, n < 2 ^ 128 → pmodTurns d (128 - j) n = pmod n d) ∧
    (∀ n, pmod n d < 2 ^ j) ∧
    (∀ n r, r < 2 ^ j → ((∃ q, n = clmul q d ^^^ r) ↔ r = pmod n d)) ∧
    (∀ n, pmod n 1 = 0) ∧
    (∀ n, n < 2 ^ j → pmod n d = n) ∧
    pmod d d = 0 ∧
    ∀ a b, pmod (a ^^^ b) d = pmod a d ^^^ pmod b d

/-- 41_polynomial.md R155: `deg`, and the sentinel, which is no index. -/
def Obligations.DegIsHighestSetBit : Prop :=
  deg 0 = none ∧ (∀ v k, deg v = some k ↔ IsTopBit v k) ∧
  (∀ v k, v < 2 ^ 128 → deg v = some k → k ≤ 127) ∧ degNone.toNat = 2 ^ 64 - 1

/-- 41_polynomial.md R160: the source's testable properties of the primitive. -/
def Obligations.RingLaws : Prop :=
  (∀ a b : Word, padd a a = 0#64 ∧ padd a 0#64 = a ∧ padd a b = padd b a) ∧
  (∀ a b, clmul a b = clmul b a) ∧
  (∀ a b c, clmul (clmul a b) c = clmul a (clmul b c)) ∧
  (∀ a b c, clmul a (b ^^^ c) = clmul a b ^^^ clmul a c) ∧
  ∀ a m j, IsTopBit m j → pmod (clmul a a) m < 2 ^ j

/-- 42_irreducibility.md R180: Euclid's loop, its end values, and that the result is the greatest
common divisor. -/
def Obligations.PgcdIsGreatestCommonDivisor : Prop :=
  (∀ a b, pgcd a b = if b = 0 then a else pgcd b (pmod a b)) ∧
  (∀ a, pgcd a 0 = a ∧ pgcd 0 a = a) ∧
  ∀ a b, (∃ q, a = clmul q (pgcd a b)) ∧ (∃ q, b = clmul q (pgcd a b)) ∧
    ∀ e, (∃ q, a = clmul q e) → (∃ q, b = clmul q e) → ∃ q, pgcd a b = clmul q e

/-- 42_irreducibility.md R181: `h[k]` is `x^(2^k) mod f`; the polynomial `x^n` is the number `2^n`. -/
def Obligations.SquareChainIsPowerOfX : Prop :=
  (∀ f p, 1 ≤ p → IsTopBit f p → squareChain f 0 = pmod 0b10 f ∧
    (2 ≤ p → squareChain f 0 = 0b10) ∧
    ∀ k, squareChain f (k + 1) = pmod (clmul (squareChain f k) (squareChain f k)) f ∧
      squareChain f k = pmod (2 ^ 2 ^ k) f ∧ squareChain f k < 2 ^ p) ∧
  squareChain 0b10 0 = 0 ∧ squareChain 0b11 0 = 1

/-- 42_irreducibility.md R182: the prime divisors. -/
def Obligations.PrimeDivisorsAreThePrimes : Prop :=
  (∀ p r, 1 ≤ p → (r ∈ primeDivisors p ↔ r.Prime ∧ r ∣ p)) ∧
  primeDivisors 1 = [] ∧ primeDivisors 30 = [2, 3, 5] ∧ primeDivisors 42 = [2, 3, 7] ∧
  primeDivisors 61 = [61] ∧ primeDivisors 63 = [3, 7] ∧
  ∀ p, p ≤ 63 → (primeDivisors p).length ≤ 3

/-- 42_irreducibility.md R184, R185: Rabin's test decides irreducibility. -/
def Obligations.RabinTestIsCorrect : Prop :=
  ∀ f p : Nat, f < 2 ^ 64 → p ≤ 63 → (isIrreducible f p = true ↔ IrreducibleOfDegree f p)

/-! ### The field build -/

/-- 43_field_build.md R202: the product of two residues, and no zero divisors. -/
def Obligations.ResiduesHaveNoZeroDivisors : Prop :=
  ∀ (c : FieldConfig) (a b : Nat), c.legal = true → a < 2 ^ c.degree → b < 2 ^ c.degree →
    c.fprod a b = pmod (clmul a b) c.modulus.toNat ∧ c.fprod a b < 2 ^ c.degree ∧
    (c.fprod a b = 0 → a = 0 ∨ b = 0)

/-- 43_field_build.md R203: `order` finds the least positive exponent of 1, up to `N`. -/
def Obligations.OrderIsLeastExponent : Prop :=
  ∀ (c : FieldConfig) (x k : Nat), c.legal = true → 1 ≤ x → x < 2 ^ c.degree →
    (c.order x = some k ↔
      1 ≤ k ∧ k ≤ 2 ^ c.degree - 1 ∧ c.power x k = 1 ∧ ∀ j, 1 ≤ j → j < k → c.power x j ≠ 1)

/-- 43_field_build.md R204: if a residue of full order exists, `g` is the least. -/
def Obligations.GeneratorIsLeastOfFullOrder : Prop :=
  ∀ c : FieldConfig, c.legal = true →
    (∃ x, 1 ≤ x ∧ x ≤ 2 ^ c.degree - 1 ∧ c.order x = some (2 ^ c.degree - 1)) →
    1 ≤ c.generator ∧ c.generator ≤ 2 ^ c.degree - 1 ∧ FullOrder c ∧
      ∀ x, 1 ≤ x → x < c.generator → c.order x ≠ some (2 ^ c.degree - 1)

/-- 43_field_build.md R205: every legal pair has a generator of full order; the examples of the rule. -/
def Obligations.LegalPairHasGenerator : Prop :=
  (∀ c : FieldConfig, c.legal = true → FullOrder c) ∧
  FieldConfig.generator ⟨0x3#64, 1⟩ = 1 ∧ FieldConfig.generator ⟨0x2#64, 1⟩ = 1 ∧
  FieldConfig.generator ⟨0x7#64, 2⟩ = 2 ∧ FieldConfig.generator ⟨0xB#64, 3⟩ = 2 ∧
  FieldConfig.generator ⟨0xD#64, 3⟩ = 2 ∧ FieldConfig.generator ⟨0x13#64, 4⟩ = 2 ∧
  FieldConfig.generator ⟨0x19#64, 4⟩ = 2 ∧ FieldConfig.generator ⟨0x11D#64, 8⟩ = 2 ∧
  FieldConfig.generator ⟨0x1F#64, 4⟩ = 3 ∧ FieldConfig.generator ⟨0x11B#64, 8⟩ = 3

/-- 43_field_build.md R206, R207, R208: the contents of the two tables, where the generator has full
order (which R205 says of every legal pair). Every index is one at which R60 of 20_memory.md
gives the table an entry; after the last one the accumulator `g^N` is 1. -/
def Obligations.TablesEnumerateField : Prop :=
  ∀ c : FieldConfig, c.legal = true → FullOrder c →
    c.alog 0 = 1 ∧
    (∀ i, i + 1 < 2 ^ c.degree - 1 → c.alog (i + 1) = c.fprod (c.alog i) c.generator) ∧
    c.power c.generator (2 ^ c.degree - 1) = 1 ∧ c.log 1 = 0 ∧
    (2 ≤ c.degree → c.alog 1 = c.generator ∧ c.log c.generator = 1) ∧
    (∀ i, i < 2 ^ c.degree - 1 →
      1 ≤ c.alog i ∧ c.alog i ≤ 2 ^ c.degree - 1 ∧ c.log (c.alog i) = i) ∧
    ∀ v, 1 ≤ v → v ≤ 2 ^ c.degree - 1 → c.log v < 2 ^ c.degree - 1 ∧ c.alog (c.log v) = v

/-- 44_field_ops.md R236, first part: FMUL by the tables is the product reduced directly, zero
operands included. -/
def Obligations.FmulIsReducedProduct : Prop :=
  ∀ s : State, s.field.legal = true → FullOrder s.field → inField s s.a → inField s s.b →
    GivesResult .fmul s (pmod (clmul s.a.toNat s.b.toNat) s.field.modulus.toNat)

/-- 44_field_ops.md R236, second part: FINV, FDIV and FPOW are the inverse, the quotient and the power
of the field. -/
def Obligations.InverseQuotientAndPower : Prop :=
  ∀ s : State, s.field.legal = true → FullOrder s.field → inField s s.a →
    (s.a ≠ 0#64 → ∃ v, v < 2 ^ s.field.degree ∧ s.field.fprod s.a.toNat v = 1 ∧
      GivesResult .finv s v ∧
      ∀ w, w < 2 ^ s.field.degree → s.field.fprod s.a.toNat w = 1 → w = v) ∧
    (inField s s.b → s.b ≠ 0#64 → ∃ v, v < 2 ^ s.field.degree ∧
      s.field.fprod s.b.toNat v = 1 ∧ GivesResult .fdiv s (s.field.fprod s.a.toNat v)) ∧
    GivesResult .fpow s (s.field.power s.a.toNat s.b.toNat)

/-- 44_field_ops.md R237: Lagrange's theorem on the commands, the inverse of a product, and that FEXP
reaches every non-zero element once. -/
def Obligations.SourcePropertiesOfField : Prop :=
  ∀ s : State, s.field.legal = true → FullOrder s.field → inField s s.a → s.a ≠ 0#64 →
    (s.b.toNat = groupOrder s → GivesResult .fpow s 1) ∧
    (∃ v : Word, GivesResult .finv s v.toNat ∧ GivesResult .fmul { s with b := v } 1) ∧
    (inField s s.b → s.b ≠ 0#64 → ∃ ab u v w : Word,
      GivesResult .fmul s ab.toNat ∧ GivesResult .finv { s with a := ab } w.toNat ∧
      GivesResult .finv s u.toNat ∧ GivesResult .finv { s with a := s.b } v.toNat ∧
      GivesResult .fmul { s with a := u, b := v } w.toNat) ∧
    ∃ index : Word, index.toNat < groupOrder s ∧
      GivesResult .fexp { s with a := index } s.a.toNat ∧
      ∀ other : Word, GivesResult .fexp { s with a := other } s.a.toNat → other = index

/-! ### The assembler -/

/-- 30_encoding.md R101: the three pseudo-commands, and what they do, run as transactions. -/
def Obligations.PseudoCommandEffects : Prop :=
  (∀ v : Product, expandPseudo (.ldpr v) = [.ldpl (v.extractLsb' 0 64), .ldph (v.extractLsb' 64 64)]) ∧
  expandPseudo .pmulmod = [.pmul, .pred] ∧ expandPseudo .rdpr = [.rdpl, .rdph] ∧
  (∀ (v : Product) (s : State), s.rsp = none →
    runWords ((expandPseudo (.ldpr v)).map encode) s =
      .next { s with pr := v, delivered := s.delivered ++ [⟨0#4, 0#64⟩, ⟨0#4, 0#64⟩] }) ∧
  (∀ s : State, s.rsp = none → ∃ p : Product, p.toNat = clmul s.a.toNat s.b.toNat ∧
    (s.m ≠ 0#64 → ∃ w : Word, w.toNat = pmod (clmul s.a.toNat s.b.toNat) s.m.toNat ∧
      runWords ((expandPseudo .pmulmod).map encode) s =
        .next { s with pr := p, r := w, delivered := s.delivered ++ [⟨0#4, 0#64⟩, ⟨0#4, 0#64⟩] }) ∧
    (s.m = 0#64 → runWords ((expandPseudo .pmulmod).map encode) s =
        .next { s with pr := p, ecode := if s.ecode = 0#4 then 2#4 else s.ecode,
                       delivered := s.delivered ++ [⟨0#4, 0#64⟩, ⟨2#4, 0#64⟩] })) ∧
  ∀ s : State, s.rsp = none →
    runWords ((expandPseudo .rdpr).map encode) s =
      .next { s with delivered := s.delivered ++
        [⟨0#4, s.pr.extractLsb' 0 64⟩, ⟨0#4, s.pr.extractLsb' 64 64⟩] }

/-- 30_encoding.md R100: a decimal immediate of each format `D` command, every value below `2^64`, and
an assembler error above. -/
def Obligations.DecimalImmediatesAssemble : Prop :=
  ∀ (mnemonic : String) (op : Opcode),
    (mnemonic, op) ∈ [("LDA ", 0x10#8), ("LDB ", 0x11#8), ("LDM ", 0x12#8), ("LDPL ", 0x13#8),
      ("LDPH ", 0x14#8)] →
    ∀ v : Nat, assembleLine (mnemonic.toList ++ Nat.toDigits 10 v) =
      if v < 2 ^ 64 then .ok [op ++ BitVec.ofNat 64 v] else .error .literalTooLarge
end

