-- ==== Sys2Proof/Laws/Decode.lean ====
section
/-! SUPPORT. The two fields of a command word written as `{op, imm}`, and decoding in terms of them. -/

namespace Sys2Proof

@[simp] theorem opcodeField_append (op : Opcode) (imm : Word) : opcodeField (op ++ imm) = op := by
  apply BitVec.eq_of_getLsbD_eq
  intro i hi
  simp only [opcodeField, BitVec.getLsbD_extractLsb', BitVec.getLsbD_append]
  simp [hi]

@[simp] theorem immediateField_append (op : Opcode) (imm : Word) :
    immediateField (op ++ imm) = imm := by
  apply BitVec.eq_of_getLsbD_eq
  intro i hi
  simp only [immediateField, BitVec.getLsbD_extractLsb', BitVec.getLsbD_append]
  simp [hi]

/-- Every command word is its two fields. -/
theorem append_fields (cw : CommandWord) : opcodeField cw ++ immediateField cw = cw := by
  apply BitVec.eq_of_getLsbD_eq
  intro i hi
  simp only [opcodeField, immediateField, BitVec.getLsbD_append, BitVec.getLsbD_extractLsb']
  by_cases h : i < 64
  · simp [h]
  · simp [h, show i - 64 < 8 by omega, show 64 + (i - 64) = i by omega]

/-- Format `N` (30_encoding.md R89). -/
theorem decode_of_shape_n {op : Opcode} {i : Instr} (h : opcodeMap op = some (.n i)) (imm : Word) :
    decode (op ++ imm) = if imm = 0#64 then .ok i else .error (.nonzeroImmediate op) := by
  simp only [decode, opcodeField_append, immediateField_append, h]

/-- Format `D`. -/
theorem decode_of_shape_d {op : Opcode} {command : Word → Instr}
    (h : opcodeMap op = some (.d command)) (imm : Word) :
    decode (op ++ imm) = .ok (command imm) := by
  simp only [decode, opcodeField_append, immediateField_append, h]

/-- Format `S`. -/
theorem decode_of_shape_s {op : Opcode} {command : Nat → Instr}
    (h : opcodeMap op = some (.s command)) (imm : Word) :
    decode (op ++ imm) =
      if imm.extractLsb' 6 58 = 0#58 then .ok (command (imm.extractLsb' 0 6).toNat)
      else .error (.wideImmediate op) := by
  simp only [decode, opcodeField_append, immediateField_append, h]

/-- A reserved opcode. -/
theorem decode_of_reserved {op : Opcode} (h : opcodeMap op = none) (imm : Word) :
    decode (op ++ imm) = .error (.reservedOpcode op) := by
  simp only [decode, opcodeField_append, h]

/-- The two parts of a small immediate (30_encoding.md R81). -/
theorem smallImmediate_high (v : BitVec 6) : (0#58 ++ v : Word).extractLsb' 6 58 = 0#58 := by
  apply BitVec.eq_of_getLsbD_eq
  intro i hi
  simp only [BitVec.getLsbD_extractLsb', BitVec.getLsbD_append]
  simp

theorem smallImmediate_low (v : BitVec 6) : (0#58 ++ v : Word).extractLsb' 0 6 = v := by
  apply BitVec.eq_of_getLsbD_eq
  intro i hi
  simp only [BitVec.getLsbD_extractLsb', BitVec.getLsbD_append]
  simp [hi]

end Sys2Proof
end

