-- ==== Sys2Proof/Laws/State.lean ====
section
/-! SUPPORT. What each register write changes and what it leaves, one lemma per field and write, and
the fields of the reset state. -/

namespace Sys2Proof.Machine

@[simp] theorem State.setA_field (s : State) (v : Word) : (s.setA v).field = s.field := rfl
@[simp] theorem State.setA_a (s : State) (v : Word) : (s.setA v).a = v := rfl
@[simp] theorem State.setA_b (s : State) (v : Word) : (s.setA v).b = s.b := rfl
@[simp] theorem State.setA_m (s : State) (v : Word) : (s.setA v).m = s.m := rfl
@[simp] theorem State.setA_pr (s : State) (v : Word) : (s.setA v).pr = s.pr := rfl
@[simp] theorem State.setA_r (s : State) (v : Word) : (s.setA v).r = s.r := rfl
@[simp] theorem State.setA_ecode (s : State) (v : Word) : (s.setA v).ecode = s.ecode := rfl
@[simp] theorem State.setA_rsp (s : State) (v : Word) : (s.setA v).rsp = s.rsp := rfl
@[simp] theorem State.setA_inputs (s : State) (v : Word) : (s.setA v).inputs = s.inputs := rfl
@[simp] theorem State.setA_delivered (s : State) (v : Word) : (s.setA v).delivered = s.delivered := rfl

@[simp] theorem State.setB_field (s : State) (v : Word) : (s.setB v).field = s.field := rfl
@[simp] theorem State.setB_a (s : State) (v : Word) : (s.setB v).a = s.a := rfl
@[simp] theorem State.setB_b (s : State) (v : Word) : (s.setB v).b = v := rfl
@[simp] theorem State.setB_m (s : State) (v : Word) : (s.setB v).m = s.m := rfl
@[simp] theorem State.setB_pr (s : State) (v : Word) : (s.setB v).pr = s.pr := rfl
@[simp] theorem State.setB_r (s : State) (v : Word) : (s.setB v).r = s.r := rfl
@[simp] theorem State.setB_ecode (s : State) (v : Word) : (s.setB v).ecode = s.ecode := rfl
@[simp] theorem State.setB_rsp (s : State) (v : Word) : (s.setB v).rsp = s.rsp := rfl
@[simp] theorem State.setB_inputs (s : State) (v : Word) : (s.setB v).inputs = s.inputs := rfl
@[simp] theorem State.setB_delivered (s : State) (v : Word) : (s.setB v).delivered = s.delivered := rfl

@[simp] theorem State.setM_field (s : State) (v : Word) : (s.setM v).field = s.field := rfl
@[simp] theorem State.setM_a (s : State) (v : Word) : (s.setM v).a = s.a := rfl
@[simp] theorem State.setM_b (s : State) (v : Word) : (s.setM v).b = s.b := rfl
@[simp] theorem State.setM_m (s : State) (v : Word) : (s.setM v).m = v := rfl
@[simp] theorem State.setM_pr (s : State) (v : Word) : (s.setM v).pr = s.pr := rfl
@[simp] theorem State.setM_r (s : State) (v : Word) : (s.setM v).r = s.r := rfl
@[simp] theorem State.setM_ecode (s : State) (v : Word) : (s.setM v).ecode = s.ecode := rfl
@[simp] theorem State.setM_rsp (s : State) (v : Word) : (s.setM v).rsp = s.rsp := rfl
@[simp] theorem State.setM_inputs (s : State) (v : Word) : (s.setM v).inputs = s.inputs := rfl
@[simp] theorem State.setM_delivered (s : State) (v : Word) : (s.setM v).delivered = s.delivered := rfl

@[simp] theorem State.setPr_field (s : State) (v : Product) : (s.setPr v).field = s.field := rfl
@[simp] theorem State.setPr_a (s : State) (v : Product) : (s.setPr v).a = s.a := rfl
@[simp] theorem State.setPr_b (s : State) (v : Product) : (s.setPr v).b = s.b := rfl
@[simp] theorem State.setPr_m (s : State) (v : Product) : (s.setPr v).m = s.m := rfl
@[simp] theorem State.setPr_pr (s : State) (v : Product) : (s.setPr v).pr = v := rfl
@[simp] theorem State.setPr_r (s : State) (v : Product) : (s.setPr v).r = s.r := rfl
@[simp] theorem State.setPr_ecode (s : State) (v : Product) : (s.setPr v).ecode = s.ecode := rfl
@[simp] theorem State.setPr_rsp (s : State) (v : Product) : (s.setPr v).rsp = s.rsp := rfl
@[simp] theorem State.setPr_inputs (s : State) (v : Product) : (s.setPr v).inputs = s.inputs := rfl
@[simp] theorem State.setPr_delivered (s : State) (v : Product) : (s.setPr v).delivered = s.delivered := rfl

@[simp] theorem State.setR_field (s : State) (v : Word) : (s.setR v).field = s.field := rfl
@[simp] theorem State.setR_a (s : State) (v : Word) : (s.setR v).a = s.a := rfl
@[simp] theorem State.setR_b (s : State) (v : Word) : (s.setR v).b = s.b := rfl
@[simp] theorem State.setR_m (s : State) (v : Word) : (s.setR v).m = s.m := rfl
@[simp] theorem State.setR_pr (s : State) (v : Word) : (s.setR v).pr = s.pr := rfl
@[simp] theorem State.setR_r (s : State) (v : Word) : (s.setR v).r = v := rfl
@[simp] theorem State.setR_ecode (s : State) (v : Word) : (s.setR v).ecode = s.ecode := rfl
@[simp] theorem State.setR_rsp (s : State) (v : Word) : (s.setR v).rsp = s.rsp := rfl
@[simp] theorem State.setR_inputs (s : State) (v : Word) : (s.setR v).inputs = s.inputs := rfl
@[simp] theorem State.setR_delivered (s : State) (v : Word) : (s.setR v).delivered = s.delivered := rfl

@[simp] theorem State.setEcode_field (s : State) (v : ErrorCode) : (s.setEcode v).field = s.field := rfl
@[simp] theorem State.setEcode_a (s : State) (v : ErrorCode) : (s.setEcode v).a = s.a := rfl
@[simp] theorem State.setEcode_b (s : State) (v : ErrorCode) : (s.setEcode v).b = s.b := rfl
@[simp] theorem State.setEcode_m (s : State) (v : ErrorCode) : (s.setEcode v).m = s.m := rfl
@[simp] theorem State.setEcode_pr (s : State) (v : ErrorCode) : (s.setEcode v).pr = s.pr := rfl
@[simp] theorem State.setEcode_r (s : State) (v : ErrorCode) : (s.setEcode v).r = s.r := rfl
@[simp] theorem State.setEcode_ecode (s : State) (v : ErrorCode) : (s.setEcode v).ecode = v := rfl
@[simp] theorem State.setEcode_rsp (s : State) (v : ErrorCode) : (s.setEcode v).rsp = s.rsp := rfl
@[simp] theorem State.setEcode_inputs (s : State) (v : ErrorCode) : (s.setEcode v).inputs = s.inputs := rfl
@[simp] theorem State.setEcode_delivered (s : State) (v : ErrorCode) : (s.setEcode v).delivered = s.delivered := rfl

@[simp] theorem State.setRsp_field (s : State) (v : Option Response) : (s.setRsp v).field = s.field := rfl
@[simp] theorem State.setRsp_a (s : State) (v : Option Response) : (s.setRsp v).a = s.a := rfl
@[simp] theorem State.setRsp_b (s : State) (v : Option Response) : (s.setRsp v).b = s.b := rfl
@[simp] theorem State.setRsp_m (s : State) (v : Option Response) : (s.setRsp v).m = s.m := rfl
@[simp] theorem State.setRsp_pr (s : State) (v : Option Response) : (s.setRsp v).pr = s.pr := rfl
@[simp] theorem State.setRsp_r (s : State) (v : Option Response) : (s.setRsp v).r = s.r := rfl
@[simp] theorem State.setRsp_ecode (s : State) (v : Option Response) : (s.setRsp v).ecode = s.ecode := rfl
@[simp] theorem State.setRsp_rsp (s : State) (v : Option Response) : (s.setRsp v).rsp = v := rfl
@[simp] theorem State.setRsp_inputs (s : State) (v : Option Response) : (s.setRsp v).inputs = s.inputs := rfl
@[simp] theorem State.setRsp_delivered (s : State) (v : Option Response) : (s.setRsp v).delivered = s.delivered := rfl

@[simp] theorem State.setInputs_field (s : State) (v : List PortInput) : (s.setInputs v).field = s.field := rfl
@[simp] theorem State.setInputs_a (s : State) (v : List PortInput) : (s.setInputs v).a = s.a := rfl
@[simp] theorem State.setInputs_b (s : State) (v : List PortInput) : (s.setInputs v).b = s.b := rfl
@[simp] theorem State.setInputs_m (s : State) (v : List PortInput) : (s.setInputs v).m = s.m := rfl
@[simp] theorem State.setInputs_pr (s : State) (v : List PortInput) : (s.setInputs v).pr = s.pr := rfl
@[simp] theorem State.setInputs_r (s : State) (v : List PortInput) : (s.setInputs v).r = s.r := rfl
@[simp] theorem State.setInputs_ecode (s : State) (v : List PortInput) : (s.setInputs v).ecode = s.ecode := rfl
@[simp] theorem State.setInputs_rsp (s : State) (v : List PortInput) : (s.setInputs v).rsp = s.rsp := rfl
@[simp] theorem State.setInputs_inputs (s : State) (v : List PortInput) : (s.setInputs v).inputs = v := rfl
@[simp] theorem State.setInputs_delivered (s : State) (v : List PortInput) : (s.setInputs v).delivered = s.delivered := rfl

@[simp] theorem State.setDelivered_field (s : State) (v : List Response) : (s.setDelivered v).field = s.field := rfl
@[simp] theorem State.setDelivered_a (s : State) (v : List Response) : (s.setDelivered v).a = s.a := rfl
@[simp] theorem State.setDelivered_b (s : State) (v : List Response) : (s.setDelivered v).b = s.b := rfl
@[simp] theorem State.setDelivered_m (s : State) (v : List Response) : (s.setDelivered v).m = s.m := rfl
@[simp] theorem State.setDelivered_pr (s : State) (v : List Response) : (s.setDelivered v).pr = s.pr := rfl
@[simp] theorem State.setDelivered_r (s : State) (v : List Response) : (s.setDelivered v).r = s.r := rfl
@[simp] theorem State.setDelivered_ecode (s : State) (v : List Response) : (s.setDelivered v).ecode = s.ecode := rfl
@[simp] theorem State.setDelivered_rsp (s : State) (v : List Response) : (s.setDelivered v).rsp = s.rsp := rfl
@[simp] theorem State.setDelivered_inputs (s : State) (v : List Response) : (s.setDelivered v).inputs = s.inputs := rfl
@[simp] theorem State.setDelivered_delivered (s : State) (v : List Response) : (s.setDelivered v).delivered = v := rfl

@[simp] theorem State.resetOf_field (c : FieldConfig) : (State.resetOf c).field = c := rfl
@[simp] theorem State.resetOf_a (c : FieldConfig) : (State.resetOf c).a = 0#64 := rfl
@[simp] theorem State.resetOf_b (c : FieldConfig) : (State.resetOf c).b = 0#64 := rfl
@[simp] theorem State.resetOf_m (c : FieldConfig) : (State.resetOf c).m = 0#64 := rfl
@[simp] theorem State.resetOf_pr (c : FieldConfig) : (State.resetOf c).pr = 0#128 := rfl
@[simp] theorem State.resetOf_r (c : FieldConfig) : (State.resetOf c).r = 0#64 := rfl
@[simp] theorem State.resetOf_ecode (c : FieldConfig) : (State.resetOf c).ecode = 0#4 := rfl
@[simp] theorem State.resetOf_rsp (c : FieldConfig) : (State.resetOf c).rsp = none := rfl
@[simp] theorem State.resetOf_inputs (c : FieldConfig) : (State.resetOf c).inputs = [] := rfl
@[simp] theorem State.resetOf_delivered (c : FieldConfig) : (State.resetOf c).delivered = [] := rfl

/-- Two states with the same fields are the same state. -/
theorem State.eq_of_fields {s t : State} (hfield : s.field = t.field) (ha : s.a = t.a)
    (hb : s.b = t.b) (hm : s.m = t.m) (hpr : s.pr = t.pr) (hr : s.r = t.r)
    (hecode : s.ecode = t.ecode) (hrsp : s.rsp = t.rsp) (hinputs : s.inputs = t.inputs)
    (hdelivered : s.delivered = t.delivered) : s = t := by
  cases s; cases t; simp_all

end Sys2Proof.Machine
end

