-- ==== Sys2Proof/Laws/Exec.lean ====
section
/-! SUPPORT. What each shared operation, each command and each step can do, said once. Later proofs
cite these lemmas and do not unfold the machine again. -/

namespace Sys2Proof.Machine

theorem complete_eq_next {s t : State} :
    complete s = .next t ↔ t = s.setRsp (some { err := 0#4, data := 0#64 }) := by
  simp [complete, okCode, eq_comm]

theorem answer_eq_next {v : Word} {s t : State} :
    answer v s = .next t ↔ t = s.setRsp (some { err := 0#4, data := v }) := by
  simp [answer, okCode, eq_comm]

theorem writeResult_eq_next {v : Word} {s t : State} :
    writeResult v s = .next t ↔ t = (s.setR v).setRsp (some { err := 0#4, data := 0#64 }) := by
  simp [writeResult, complete_eq_next]

theorem clearStatus_eq_next {s t : State} :
    clearStatus s = .next t ↔ t = (s.setEcode 0#4).setRsp (some { err := 0#4, data := 0#64 }) := by
  simp [clearStatus, complete_eq_next, okCode]

theorem raise_eq_next {e : Err} {s t : State} :
    raise e s = .next t ↔
      t = (s.setEcode (latchError s.ecode e)).setRsp (some { err := errorCode e, data := 0#64 }) := by
  simp [raise, eq_comm]

theorem errorCode_ne_zero (e : Err) : errorCode e ≠ 0#4 := by cases e <;> decide

theorem errorCode_le_four (e : Err) : (errorCode e).toNat ≤ 4 := by cases e <;> decide

theorem latchError_of_zero (e : Err) : latchError 0#4 e = errorCode e := rfl

theorem latchError_of_ne_zero {c : ErrorCode} (e : Err) (h : c ≠ 0#4) : latchError c e = c := by
  simp [latchError, okCode, h]

theorem prOfHalves_prHigh_prLow (pr : Product) : prOfHalves (prHigh pr) (prLow pr) = pr := by
  apply BitVec.eq_of_getLsbD_eq
  intro i hi
  simp only [prOfHalves, prHigh, prLow, BitVec.getLsbD_append, BitVec.getLsbD_extractLsb']
  by_cases h : i < 64
  · simp [h]
  · simp [h, show i - 64 < 64 by omega, show 64 + (i - 64) = i by omega]

theorem prHigh_prOfHalves (high low : Word) : prHigh (prOfHalves high low) = high := by
  apply BitVec.eq_of_getLsbD_eq
  intro i hi
  simp only [prOfHalves, prHigh, BitVec.getLsbD_extractLsb', BitVec.getLsbD_append]
  simp [hi]

theorem prLow_prOfHalves (high low : Word) : prLow (prOfHalves high low) = low := by
  apply BitVec.eq_of_getLsbD_eq
  intro i hi
  simp only [prOfHalves, prLow, BitVec.getLsbD_extractLsb', BitVec.getLsbD_append]
  simp [hi]

/-- The writes a successful command can make: at most one register, or the clearing of `ECODE`
(10_state.md R52). -/
def OneWrite (s u : State) : Prop :=
  u = s ∨ (∃ v, u = s.setA v) ∨ (∃ v, u = s.setB v) ∨ (∃ v, u = s.setM v) ∨ (∃ v, u = s.setPr v) ∨
    (∃ v, u = s.setR v) ∨ u = s.setEcode 0#4

/-- How a command can end: in an error, or in at most one write and a response of success. -/
def Ends (s t : State) : Prop :=
  (∃ e, raise e s = .next t) ∨
    ∃ u v, OneWrite s u ∧ t = u.setRsp (some { err := 0#4, data := v })

theorem ends_raise {e : Err} {s : State} : ∃ t, raise e s = .next t ∧ Ends s t :=
  ⟨_, rfl, .inl ⟨e, rfl⟩⟩

theorem ends_answer {v : Word} {s : State} : ∃ t, answer v s = .next t ∧ Ends s t :=
  ⟨_, rfl, .inr ⟨s, v, .inl rfl, rfl⟩⟩

theorem ends_complete {s u : State} (h : OneWrite s u) : ∃ t, complete u = .next t ∧ Ends s t :=
  ⟨_, rfl, .inr ⟨u, 0#64, h, rfl⟩⟩

theorem ends_writeResult {v : Word} {s : State} : ∃ t, writeResult v s = .next t ∧ Ends s t :=
  ends_complete (by simp [OneWrite])

theorem ends_ite {p : Prop} [Decidable p] {x y : Result} {s : State}
    (hx : ∃ t, x = .next t ∧ Ends s t) (hy : ∃ t, y = .next t ∧ Ends s t) :
    ∃ t, (if p then x else y) = .next t ∧ Ends s t := by
  split <;> assumption

/-- One fact about all 33 commands: each ends, and in one of the ways of `Ends`. -/
theorem exec_ends (i : Instr) (s : State) : ∃ t, exec i s = .next t ∧ Ends s t := by
  cases i with
  | nop => exact ends_complete (.inl rfl)
  | clre => exact ends_complete (by simp [OneWrite, okCode])
  | lda imm64 => exact ends_complete (by simp [OneWrite])
  | ldb imm64 => exact ends_complete (by simp [OneWrite])
  | ldm imm64 => exact ends_complete (by simp [OneWrite])
  | ldpl imm64 => exact ends_complete (by simp [OneWrite])
  | ldph imm64 => exact ends_complete (by simp [OneWrite])
  | mra => exact ends_complete (by simp [OneWrite])
  | mrb => exact ends_complete (by simp [OneWrite])
  | mrm => exact ends_complete (by simp [OneWrite])
  | mrp => exact ends_complete (by simp [OneWrite])
  | rdr => exact ends_answer
  | rda => exact ends_answer
  | rdb => exact ends_answer
  | rdm => exact ends_answer
  | rdpl => exact ends_answer
  | rdph => exact ends_answer
  | rdst => exact ends_answer
  | rdfm => exact ends_answer
  | rdfp => exact ends_answer
  | rdfg => exact ends_answer
  | padd => exact ends_writeResult
  | pmul => exact ends_complete (by simp [OneWrite])
  | pred => exact ends_ite ends_raise ends_writeResult
  | pdeg =>
    simp only [exec, execPdeg]
    split <;> exact ends_writeResult
  | pirr p6 => exact ends_ite ends_writeResult ends_writeResult
  | fadd => exact ends_ite ends_writeResult ends_raise
  | fmul => exact ends_ite (ends_ite ends_writeResult ends_writeResult) ends_raise
  | fdiv => exact ends_ite (ends_ite ends_raise (ends_ite ends_writeResult ends_writeResult)) ends_raise
  | finv => exact ends_ite (ends_ite ends_raise ends_writeResult) ends_raise
  | fpow => exact ends_ite (ends_ite ends_writeResult (ends_ite ends_writeResult ends_writeResult)) ends_raise
  | flog => exact ends_ite ends_writeResult ends_raise
  | fexp => exact ends_ite ends_writeResult ends_raise

/-- The inversion lemma of `exec`. -/
theorem exec_next_cases {i : Instr} {s t : State} (h : exec i s = .next t) : Ends s t := by
  obtain ⟨u, hu, hends⟩ := exec_ends i s
  rw [hu] at h
  cases h
  exact hends

theorem execWord_of_decode {cw : CommandWord} {i : Instr} (h : decode cw = .ok i) (s : State) :
    execWord cw s = exec i s := by
  simp [execWord, h]

theorem execWord_of_illegal {cw : CommandWord} {e : DecodeError} (h : decode cw = .error e)
    (s : State) : execWord cw s = raise .illegal s := by
  simp [execWord, h]

/-- A command word, legal or not, ends in one of the ways of `Ends`. -/
theorem execWord_ends (cw : CommandWord) (s : State) : ∃ t, execWord cw s = .next t ∧ Ends s t := by
  cases h : decode cw with
  | error e => exact execWord_of_illegal h s ▸ ends_raise
  | ok i => exact execWord_of_decode h s ▸ exec_ends i s

/-- What no command touches: the instance, the host's side, the response stream. -/
theorem Ends.frame {s t : State} (h : Ends s t) :
    t.field = s.field ∧ t.inputs = s.inputs ∧ t.delivered = s.delivered := by
  obtain ⟨e, he⟩ | ⟨u, v, hu, rfl⟩ := h
  · obtain rfl := raise_eq_next.1 he
    simp
  · obtain rfl | ⟨w, rfl⟩ | ⟨w, rfl⟩ | ⟨w, rfl⟩ | ⟨w, rfl⟩ | ⟨w, rfl⟩ | rfl := hu <;> simp

/-- Every command leaves a response. -/
theorem Ends.response {s t : State} (h : Ends s t) : ∃ rw, t.rsp = some rw := by
  obtain ⟨e, he⟩ | ⟨u, v, -, rfl⟩ := h
  · obtain rfl := raise_eq_next.1 he
    exact ⟨_, rfl⟩
  · exact ⟨_, rfl⟩

/-- The same end of a command, with another host. -/
def withHost (l : List PortInput) (o : Result) : Result :=
  match o with
  | .next u => .next (u.setInputs l)
  | .fault f => .fault f
  | .refused f => .refused f

theorem withHost_ite {p : Prop} [Decidable p] (l : List PortInput) (x y : Result) :
    withHost l (if p then x else y) = if p then withHost l x else withHost l y := by
  split <;> rfl

/-- The unit sees the registers, the instance and the command word, and nothing of what the host will
do next (70_reset_and_hazards.md R302). -/
theorem exec_setInputs_eq (i : Instr) (s : State) (l : List PortInput) :
    exec i (s.setInputs l) = withHost l (exec i s) := by
  cases i with
  | pred => simp only [exec, execPred, withHost_ite]; rfl
  | pirr p6 => simp only [exec, execPirr, withHost_ite]; rfl
  | fadd => simp only [exec, execFadd, withHost_ite]; rfl
  | flog => simp only [exec, execFlog, withHost_ite]; rfl
  | fexp => simp only [exec, execFexp, withHost_ite]; rfl
  | pdeg => simp only [exec, execPdeg, State.setInputs_a]; cases deg s.a.toNat <;> rfl
  | fmul => simp only [exec, execFmul, withHost_ite]; rfl
  | fdiv => simp only [exec, execFdiv, withHost_ite]; rfl
  | finv => simp only [exec, execFinv, withHost_ite]; rfl
  | fpow => simp only [exec, execFpow, withHost_ite]; rfl
  | _ => rfl

theorem exec_setInputs {i : Instr} {s t : State} (l : List PortInput) (h : exec i s = .next t) :
    exec i (s.setInputs l) = .next (t.setInputs l) := by
  rw [exec_setInputs_eq, h]
  rfl

theorem execWord_setInputs {cw : CommandWord} {s t : State} (l : List PortInput)
    (h : execWord cw s = .next t) : execWord cw (s.setInputs l) = .next (t.setInputs l) := by
  cases hd : decode cw with
  | error e =>
    rw [execWord_of_illegal hd, raise_eq_next] at h
    rw [execWord_of_illegal hd, h, raise_eq_next]
    rfl
  | ok i =>
    rw [execWord_of_decode hd] at h ⊢
    exact exec_setInputs l h

theorem deliver_of_none {s : State} (h : s.rsp = none) : deliver s = s := by
  apply State.eq_of_fields <;> simp [deliver, h]

theorem deliver_of_some {s : State} {rw : Response} (h : s.rsp = some rw) :
    deliver s = (s.setRsp none).setDelivered (s.delivered ++ [rw]) := by
  simp [deliver, h]

theorem resetUnit_eq (s : State) : resetUnit s = (State.resetOf s.field).setInputs s.inputs := rfl

/-- The inversion lemma of `cycle`: reset, acceptance of a command word, delivery, or nothing. -/
theorem cycle_next_cases {input : PortInput} {s t : State} (h : cycle input s = .next t) :
    (input.rst = true ∧ t = resetUnit s) ∨
    (input.rst = false ∧ input.cmdValid = true ∧ s.rsp = none ∧
      execWord input.cmdWord s = .next t) ∨
    (input.rst = false ∧ input.rspReady = true ∧ (∃ rw, s.rsp = some rw) ∧ t = deliver s) ∨
    (input.rst = false ∧ t = s) := by
  cases hrst : input.rst with
  | true => exact .inl ⟨rfl, by simpa [cycle, hrst, eq_comm] using h⟩
  | false =>
    cases hrsp : s.rsp with
    | none =>
      cases hvalid : input.cmdValid with
      | true => exact .inr (.inl ⟨rfl, rfl, rfl, by simpa [cycle, cmdReady, hrst, hrsp, hvalid] using h⟩)
      | false =>
        exact .inr (.inr (.inr ⟨rfl, by
          simpa [cycle, rspValid, hrst, hrsp, hvalid, eq_comm] using h⟩))
    | some rw =>
      cases hready : input.rspReady with
      | true =>
        exact .inr (.inr (.inl ⟨rfl, rfl, ⟨rw, rfl⟩, by
          simpa [cycle, cmdReady, rspValid, hrst, hrsp, hready, eq_comm] using h⟩))
      | false =>
        exact .inr (.inr (.inr ⟨rfl, by
          simpa [cycle, cmdReady, rspValid, hrst, hrsp, hready, eq_comm] using h⟩))

/-- The inversion lemma of `step`. -/
theorem step_next_cases {s t : State} (h : step s = .next t) :
    s.field.legal = true ∧
      ((s.inputs = [] ∧ t = s) ∨
        ∃ input rest, s.inputs = input :: rest ∧ cycle input (s.setInputs rest) = .next t) := by
  unfold step at h
  split at h
  · refine ⟨‹_›, ?_⟩
    unfold nextCycle at h
    split at h
    · exact .inl ⟨‹_›, by cases h; rfl⟩
    · exact .inr ⟨_, _, ‹_›, h⟩
  · cases h

end Sys2Proof.Machine
end

