-- ==== Sys2Proof/Laws/PerInstr.lean ====
section
/-! SUPPORT. The family `TableRow`: the word of every command agrees with its row of
spec/opcode_table.json, that is, it carries the row's `match` in the bits of the row's `mask`
(30_encoding.md R90). -/

namespace Sys2Proof.Laws.TableRow

/-- The `match` of a command's row. -/
def rowMatch (i : Instr) : CommandWord :=
  match i with
  | .nop => 0x000000000000000000#72
  | .clre => 0x010000000000000000#72
  | .lda _ => 0x100000000000000000#72
  | .ldb _ => 0x110000000000000000#72
  | .ldm _ => 0x120000000000000000#72
  | .ldpl _ => 0x130000000000000000#72
  | .ldph _ => 0x140000000000000000#72
  | .mra => 0x180000000000000000#72
  | .mrb => 0x190000000000000000#72
  | .mrm => 0x1A0000000000000000#72
  | .mrp => 0x1B0000000000000000#72
  | .rdr => 0x200000000000000000#72
  | .rda => 0x210000000000000000#72
  | .rdb => 0x220000000000000000#72
  | .rdm => 0x230000000000000000#72
  | .rdpl => 0x240000000000000000#72
  | .rdph => 0x250000000000000000#72
  | .rdst => 0x260000000000000000#72
  | .rdfm => 0x280000000000000000#72
  | .rdfp => 0x290000000000000000#72
  | .rdfg => 0x2A0000000000000000#72
  | .padd => 0x400000000000000000#72
  | .pmul => 0x410000000000000000#72
  | .pred => 0x420000000000000000#72
  | .pdeg => 0x430000000000000000#72
  | .pirr _ => 0x480000000000000000#72
  | .fadd => 0x500000000000000000#72
  | .fmul => 0x510000000000000000#72
  | .fdiv => 0x520000000000000000#72
  | .finv => 0x530000000000000000#72
  | .fpow => 0x540000000000000000#72
  | .flog => 0x580000000000000000#72
  | .fexp => 0x590000000000000000#72

/-- The `mask` of a command's row, by its format. -/
def rowMask (i : Instr) : CommandWord :=
  match i.format with
  | .n => 0xFFFFFFFFFFFFFFFFFF#72
  | .d => 0xFF#8 ++ 0#64
  | .s => 0xFF#8 ++ (BitVec.allOnes 58 ++ 0#6)

def Statement (i : Instr) : Prop := encode i &&& rowMask i = rowMatch i

theorem opcode_under_mask (op : Opcode) (imm : Word) :
    (op ++ imm) &&& (0xFF#8 ++ 0#64) = op ++ 0#64 := by
  rw [BitVec.and_append]
  congr 1
  · exact BitVec.and_allOnes
  · simp

theorem nop : Statement .nop := by unfold Statement; decide
theorem clre : Statement .clre := by unfold Statement; decide
theorem lda (imm64 : Word) : Statement (.lda imm64) :=
  (opcode_under_mask 0x10#8 imm64).trans rfl
theorem ldb (imm64 : Word) : Statement (.ldb imm64) :=
  (opcode_under_mask 0x11#8 imm64).trans rfl
theorem ldm (imm64 : Word) : Statement (.ldm imm64) :=
  (opcode_under_mask 0x12#8 imm64).trans rfl
theorem ldpl (imm64 : Word) : Statement (.ldpl imm64) :=
  (opcode_under_mask 0x13#8 imm64).trans rfl
theorem ldph (imm64 : Word) : Statement (.ldph imm64) :=
  (opcode_under_mask 0x14#8 imm64).trans rfl
theorem mra : Statement .mra := by unfold Statement; decide
theorem mrb : Statement .mrb := by unfold Statement; decide
theorem mrm : Statement .mrm := by unfold Statement; decide
theorem mrp : Statement .mrp := by unfold Statement; decide
theorem rdr : Statement .rdr := by unfold Statement; decide
theorem rda : Statement .rda := by unfold Statement; decide
theorem rdb : Statement .rdb := by unfold Statement; decide
theorem rdm : Statement .rdm := by unfold Statement; decide
theorem rdpl : Statement .rdpl := by unfold Statement; decide
theorem rdph : Statement .rdph := by unfold Statement; decide
theorem rdst : Statement .rdst := by unfold Statement; decide
theorem rdfm : Statement .rdfm := by unfold Statement; decide
theorem rdfp : Statement .rdfp := by unfold Statement; decide
theorem rdfg : Statement .rdfg := by unfold Statement; decide
theorem padd : Statement .padd := by unfold Statement; decide
theorem pmul : Statement .pmul := by unfold Statement; decide
theorem pred : Statement .pred := by unfold Statement; decide
theorem pdeg : Statement .pdeg := by unfold Statement; decide
theorem pirr (p6 : Nat) : Statement (.pirr p6) := by
  have small (v : BitVec 6) :
      (0#58 ++ v) &&& (BitVec.allOnes 58 ++ 0#6) = 0#58 ++ 0#6 := by
    rw [BitVec.and_append]
    simp
  have row (v : BitVec 6) :
      ((0x48#8 ++ (0#58 ++ v) : CommandWord)) &&& (0xFF#8 ++ (BitVec.allOnes 58 ++ 0#6)) =
        0x48#8 ++ (0#58 ++ 0#6) := by
    rw [BitVec.and_append, small]
    rfl
  exact (row (BitVec.ofNat 6 p6)).trans rfl
theorem fadd : Statement .fadd := by unfold Statement; decide
theorem fmul : Statement .fmul := by unfold Statement; decide
theorem fdiv : Statement .fdiv := by unfold Statement; decide
theorem finv : Statement .finv := by unfold Statement; decide
theorem fpow : Statement .fpow := by unfold Statement; decide
theorem flog : Statement .flog := by unfold Statement; decide
theorem fexp : Statement .fexp := by unfold Statement; decide

end Sys2Proof.Laws.TableRow
end

