-- ==== Sys2Proof/Tests/Slice0.lean ====
section
/-! SUPPORT. The model's own tests: ill-formed terms, words written out from 30_encoding.md R90, one
step each on the values of the spec's vectors (95_test_vectors.md, 96_test_vectors_field.md,
97_test_vectors_control.md; their section is named at each group), and a witness for each statement
with hypotheses. -/

namespace Sys2Proof.Tests

open Sys2Proof.Machine Sys2Proof.Claims

set_option Elab.async false

/-- The instances of 96_test_vectors_field.md. -/
def aes : FieldConfig := { modulus := 0x11B#64, degree := 8 }
def nibble : FieldConfig := { modulus := 0x13#64, degree := 4 }
def bit : FieldConfig := { modulus := 0x3#64, degree := 1 }
/-- The highest degree: x^63 + x + 1 (95_test_vectors.md section 2.5). -/
def widest : FieldConfig := { modulus := 0x8000000000000003#64, degree := 63 }

/-- The reset state of an instance with operands loaded. -/
def loaded (c : FieldConfig) (a b : Word) : State := { State.resetOf c with a := a, b := b }

def next? (o : Result) : Option State :=
  match o with
  | .next s => some s
  | .fault _ => none
  | .refused _ => none

/-- One step on the command word `w`. -/
def ran (s : State) (w : Nat) : Option State := next? (step (s.withFetchWord 72 w))

/-- `R`, `ECODE` and the response after the command word `w`. -/
def after (s : State) (w : Nat) : Option (Word × ErrorCode × Option Response) :=
  (ran s w).map fun t => (t.r, t.ecode, t.rsp)

def ok (data : Word := 0#64) : Option Response := some { err := 0#4, data := data }
def err (code : ErrorCode) : Option Response := some { err := code, data := 0#64 }

/-! ### Ill-formed terms -/

theorem test_wf_refuses_wide_degree : Instr.wf (.pirr 64) = false := by decide
theorem test_wf_accepts_widest_degree : Instr.wf (.pirr 63) = true := by decide
theorem test_legal_refuses_degree_zero : FieldConfig.legal ⟨0x1#64, 0⟩ = false := by decide
theorem test_legal_refuses_degree_above_63 : FieldConfig.legal ⟨0x11B#64, 64⟩ = false := by
  decide +kernel
/-- The illegal pairs of 96_test_vectors_field.md section 2.6. -/
theorem test_legal_refuses_reducible :
    FieldConfig.legal ⟨0x11A#64, 8⟩ = false ∧ FieldConfig.legal ⟨0x101#64, 8⟩ = false ∧
    FieldConfig.legal ⟨0x11B#64, 7⟩ = false ∧ FieldConfig.legal ⟨0x15#64, 4⟩ = false ∧
    FieldConfig.legal ⟨0x5#64, 2⟩ = false ∧ FieldConfig.legal ⟨0x1#64, 1⟩ = false ∧
    FieldConfig.legal ⟨0x0#64, 1⟩ = false := by decide +kernel
theorem test_legal_accepts :
    aes.legal = true ∧ nibble.legal = true ∧ bit.legal = true ∧
    FieldConfig.legal ⟨0x2#64, 1⟩ = true ∧ FieldConfig.legal ⟨0x1002B#64, 16⟩ = true := by
  decide +kernel
theorem test_legal_accepts_degree_63 : widest.legal = true := by decide +kernel
theorem test_illegal_pair_takes_no_step : ran (State.resetOf ⟨0x11A#64, 8⟩) 0 = none := by
  decide +kernel

/-! ### Decoding, one word per constructor (30_encoding.md R80, R81, R90) -/

theorem test_decode_housekeeping :
    decode 0x000000000000000000#72 = .ok .nop ∧
    decode 0x010000000000000000#72 = .ok .clre := by decide +kernel
theorem test_encode_housekeeping :
    encode .nop = 0x000000000000000000#72 ∧
    encode .clre = 0x010000000000000000#72 := by decide +kernel
theorem test_decode_register_writes :
    decode 0x10FFFFFFFFFFFFFFFF#72 = .ok (.lda 0xFFFFFFFFFFFFFFFF#64) ∧
    decode 0x110000000000000001#72 = .ok (.ldb 0x0000000000000001#64) ∧
    decode 0x128000000000000003#72 = .ok (.ldm 0x8000000000000003#64) ∧
    decode 0x130123456789ABCDEF#72 = .ok (.ldpl 0x0123456789ABCDEF#64) ∧
    decode 0x14FEDCBA9876543210#72 = .ok (.ldph 0xFEDCBA9876543210#64) := by decide +kernel
theorem test_encode_register_writes :
    encode (.lda 0xFFFFFFFFFFFFFFFF#64) = 0x10FFFFFFFFFFFFFFFF#72 ∧
    encode (.ldb 0x0000000000000001#64) = 0x110000000000000001#72 ∧
    encode (.ldm 0x8000000000000003#64) = 0x128000000000000003#72 ∧
    encode (.ldpl 0x0123456789ABCDEF#64) = 0x130123456789ABCDEF#72 ∧
    encode (.ldph 0xFEDCBA9876543210#64) = 0x14FEDCBA9876543210#72 := by decide +kernel
theorem test_decode_moves :
    decode 0x180000000000000000#72 = .ok .mra ∧
    decode 0x190000000000000000#72 = .ok .mrb ∧
    decode 0x1A0000000000000000#72 = .ok .mrm ∧
    decode 0x1B0000000000000000#72 = .ok .mrp := by decide +kernel
theorem test_encode_moves :
    encode .mra = 0x180000000000000000#72 ∧
    encode .mrb = 0x190000000000000000#72 ∧
    encode .mrm = 0x1A0000000000000000#72 ∧
    encode .mrp = 0x1B0000000000000000#72 := by decide +kernel
theorem test_decode_reads :
    decode 0x200000000000000000#72 = .ok .rdr ∧
    decode 0x210000000000000000#72 = .ok .rda ∧
    decode 0x220000000000000000#72 = .ok .rdb ∧
    decode 0x230000000000000000#72 = .ok .rdm ∧
    decode 0x240000000000000000#72 = .ok .rdpl ∧
    decode 0x250000000000000000#72 = .ok .rdph ∧
    decode 0x260000000000000000#72 = .ok .rdst := by decide +kernel
theorem test_encode_reads :
    encode .rdr = 0x200000000000000000#72 ∧
    encode .rda = 0x210000000000000000#72 ∧
    encode .rdb = 0x220000000000000000#72 ∧
    encode .rdm = 0x230000000000000000#72 ∧
    encode .rdpl = 0x240000000000000000#72 ∧
    encode .rdph = 0x250000000000000000#72 ∧
    encode .rdst = 0x260000000000000000#72 := by decide +kernel
theorem test_decode_constants :
    decode 0x280000000000000000#72 = .ok .rdfm ∧
    decode 0x290000000000000000#72 = .ok .rdfp ∧
    decode 0x2A0000000000000000#72 = .ok .rdfg := by decide +kernel
theorem test_encode_constants :
    encode .rdfm = 0x280000000000000000#72 ∧
    encode .rdfp = 0x290000000000000000#72 ∧
    encode .rdfg = 0x2A0000000000000000#72 := by decide +kernel
theorem test_decode_polynomial :
    decode 0x400000000000000000#72 = .ok .padd ∧
    decode 0x410000000000000000#72 = .ok .pmul ∧
    decode 0x420000000000000000#72 = .ok .pred ∧
    decode 0x430000000000000000#72 = .ok .pdeg ∧
    decode 0x48000000000000002A#72 = .ok (.pirr 42) := by decide +kernel
theorem test_encode_polynomial :
    encode .padd = 0x400000000000000000#72 ∧
    encode .pmul = 0x410000000000000000#72 ∧
    encode .pred = 0x420000000000000000#72 ∧
    encode .pdeg = 0x430000000000000000#72 ∧
    encode (.pirr 42) = 0x48000000000000002A#72 := by decide +kernel
theorem test_decode_field :
    decode 0x500000000000000000#72 = .ok .fadd ∧
    decode 0x510000000000000000#72 = .ok .fmul ∧
    decode 0x520000000000000000#72 = .ok .fdiv ∧
    decode 0x530000000000000000#72 = .ok .finv ∧
    decode 0x540000000000000000#72 = .ok .fpow := by decide +kernel
theorem test_encode_field :
    encode .fadd = 0x500000000000000000#72 ∧
    encode .fmul = 0x510000000000000000#72 ∧
    encode .fdiv = 0x520000000000000000#72 ∧
    encode .finv = 0x530000000000000000#72 ∧
    encode .fpow = 0x540000000000000000#72 := by decide +kernel
theorem test_decode_tables :
    decode 0x580000000000000000#72 = .ok .flog ∧
    decode 0x590000000000000000#72 = .ok .fexp := by decide +kernel
theorem test_encode_tables :
    encode .flog = 0x580000000000000000#72 ∧
    encode .fexp = 0x590000000000000000#72 := by decide +kernel

/-- Illegal words of 97_test_vectors_control.md section 2.9. -/
theorem test_decode_rejects :
    decode 0x000000000000000001#72 = .error (.nonzeroImmediate 0x00#8) ∧
    decode 0x018000000000000000#72 = .error (.nonzeroImmediate 0x01#8) ∧
    decode 0x020000000000000000#72 = .error (.reservedOpcode 0x02#8) ∧
    decode 0x270000000000000000#72 = .error (.reservedOpcode 0x27#8) ∧
    decode 0x480000000000000040#72 = .error (.wideImmediate 0x48#8) ∧
    decode 0x488000000000000008#72 = .error (.wideImmediate 0x48#8) ∧
    decode 0x5A0000000000000000#72 = .error (.reservedOpcode 0x5A#8) ∧
    decode 0xFFFFFFFFFFFFFFFFFF#72 = .error (.reservedOpcode 0xFF#8) := by decide +kernel

/-- An illegal word sets `ECODE` to 1 and returns the code, and changes no register. -/
theorem test_illegal_word :
    ran (loaded aes 0x57#64 0#64) 0x200000000000000100 =
      some { loaded aes 0x57#64 0#64 with ecode := 1#4, rsp := err 1#4 } := by decide +kernel

/-! ### Transfer commands (97_test_vectors_control.md sections 2.8 and 2.10) -/

/-- A state in which all registers differ. -/
def mixed : State :=
  { State.resetOf aes with
    a := 0x11#64, b := 0x22#64, m := 0x44#64, pr := 0x22222222222222221111111111111111#128,
    r := 0xDF8EFB8843553DE2#64, ecode := 3#4 }

theorem test_nop : ran mixed 0x000000000000000000 = some { mixed with rsp := ok } := by
  decide +kernel
theorem test_clre : ran mixed 0x010000000000000000 = some { mixed with ecode := 0#4, rsp := ok } := by
  decide +kernel
theorem test_lda : ran mixed 0x10DEADBEEFCAFEF00D = some { mixed with a := 0xDEADBEEFCAFEF00D#64, rsp := ok } := by
  decide +kernel
theorem test_ldb : ran mixed 0x110123456789ABCDEF = some { mixed with b := 0x0123456789ABCDEF#64, rsp := ok } := by
  decide +kernel
theorem test_ldm : ran mixed 0x128000000000000003 = some { mixed with m := 0x8000000000000003#64, rsp := ok } := by
  decide +kernel
theorem test_ldpl_keeps_high_half : ran mixed 0x133333333333333333 = some { mixed with pr := 0x22222222222222223333333333333333#128, rsp := ok } := by
  decide +kernel
theorem test_ldph_keeps_low_half : ran mixed 0x144444444444444444 = some { mixed with pr := 0x44444444444444441111111111111111#128, rsp := ok } := by
  decide +kernel
theorem test_mra : ran mixed 0x180000000000000000 = some { mixed with a := 0xDF8EFB8843553DE2#64, rsp := ok } := by
  decide +kernel
theorem test_mrb : ran mixed 0x190000000000000000 = some { mixed with b := 0xDF8EFB8843553DE2#64, rsp := ok } := by
  decide +kernel
theorem test_mrm : ran mixed 0x1A0000000000000000 = some { mixed with m := 0xDF8EFB8843553DE2#64, rsp := ok } := by
  decide +kernel
theorem test_mrp_clears_high_half : ran mixed 0x1B0000000000000000 = some { mixed with pr := 0xDF8EFB8843553DE2#128, rsp := ok } := by
  decide +kernel
theorem test_rdr : ran mixed 0x200000000000000000 = some { mixed with rsp := ok 0xDF8EFB8843553DE2#64 } := by
  decide +kernel
theorem test_rda : ran mixed 0x210000000000000000 = some { mixed with rsp := ok 0x11#64 } := by
  decide +kernel
theorem test_rdb : ran mixed 0x220000000000000000 = some { mixed with rsp := ok 0x22#64 } := by
  decide +kernel
theorem test_rdm : ran mixed 0x230000000000000000 = some { mixed with rsp := ok 0x44#64 } := by
  decide +kernel
theorem test_rdpl : ran mixed 0x240000000000000000 = some { mixed with rsp := ok 0x1111111111111111#64 } := by
  decide +kernel
theorem test_rdph : ran mixed 0x250000000000000000 = some { mixed with rsp := ok 0x2222222222222222#64 } := by
  decide +kernel
theorem test_rdst : ran mixed 0x260000000000000000 = some { mixed with rsp := ok 0x3#64 } := by
  decide +kernel
theorem test_rdfm : ran mixed 0x280000000000000000 = some { mixed with rsp := ok 0x11B#64 } := by
  decide +kernel
theorem test_rdfp : ran mixed 0x290000000000000000 = some { mixed with rsp := ok 0x8#64 } := by
  decide +kernel
theorem test_rdfg : ran mixed 0x2A0000000000000000 = some { mixed with rsp := ok 0x3#64 } := by
  decide +kernel
/-- An illegal CLRE clears nothing and leaves the first code (section 2.10 row 16). -/
theorem test_illegal_clre : ran mixed 0x010000000000000001 = some { mixed with rsp := err 1#4 } := by
  decide +kernel

/-! ### Polynomial commands (95_test_vectors.md sections 2.1 to 2.5) -/

theorem test_padd_no_carry : after (loaded aes 0xFFFFFFFFFFFFFFFF#64 0x1#64) 0x400000000000000000 = some (0xFFFFFFFFFFFFFFFE#64, 0#4, ok) := by decide +kernel
def product (a b : Word) : Option Product := (ran (loaded aes a b) 0x410000000000000000).map State.pr
theorem test_pmul_vector : product 0xDEADBEEFCAFEF00D#64 0x0123456789ABCDEF#64 =
    some 0x00C42FDE8B6B55D1D9FA158EF8FFC52B#128 := by decide +kernel
theorem test_pmul_all_ones : product (BitVec.allOnes 64) (BitVec.allOnes 64) =
    some 0x55555555555555555555555555555555#128 := by decide +kernel
def reduce (pr : Product) (m : Word) : Option (Word × ErrorCode × Option Response) :=
  after { State.resetOf aes with pr := pr, m := m } 0x420000000000000000
theorem test_pred_vector : reduce 0x00C42FDE8B6B55D1D9FA158EF8FFC52B#128 0x8000000000000003#64 =
    some (0x5B62F549C38439CE#64, 0#4, ok) := by decide +kernel
theorem test_pred_zero_modulus : ran mixed 0x420000000000000000 ≠ none ∧
    after { mixed with m := 0#64, ecode := 0#4 } 0x420000000000000000 =
      some (0xDF8EFB8843553DE2#64, 2#4, err 2#4) := by decide +kernel
theorem test_pdeg_zero : after (loaded aes 0#64 0#64) 0x430000000000000000 = some (0xFFFFFFFFFFFFFFFF#64, 0#4, ok) := by decide +kernel
theorem test_pdeg_62 : after (loaded aes 0x7FFFFFFFFFFFFFFF#64 0#64) 0x430000000000000000 = some (62#64, 0#4, ok) := by decide +kernel
theorem test_pirr_degree_63 : after ({ State.resetOf aes with m := 0x8000000000000003#64 }) 0x48000000000000003F = some (1#64, 0#4, ok) := by decide +kernel
theorem test_pirr_needs_second_condition : after ({ State.resetOf aes with m := 0x12#64 }) 0x480000000000000004 = some (0#64, 0#4, ok) := by decide +kernel
/-- The irreducible polynomials of degree 1 to 6 (95_test_vectors.md section 2.5). -/
theorem test_irreducible_list :
    ((List.range 128).filter fun f => isIrreducible f f.log2) =
      [0x2, 0x3, 0x7, 0xB, 0xD, 0x13, 0x19, 0x1F, 0x25, 0x29, 0x2F, 0x37, 0x3B, 0x3D, 0x43, 0x49,
       0x57, 0x5B, 0x61, 0x67, 0x6D, 0x73, 0x75] := by decide +kernel
/-- The squaring chain of 42_irreducibility.md R189. -/
theorem test_square_chain :
    (List.range 9).map (squareChain 0x11B) = [0x2, 0x4, 0x10, 0x1B, 0x5E, 0xE4, 0x4D, 0xFA, 0x2] := by
  decide +kernel
/-- Program P3 of 95_test_vectors.md. -/
theorem test_pgcd : pgcd 0x79 0xAD = 0x13 := by decide +kernel

/-! ### The field build (43_field_build.md R205, R210; 96_test_vectors_field.md section 2.6) -/

theorem test_tables_1F :
    ((List.range 15).map (FieldConfig.alog ⟨0x1F#64, 4⟩) =
      [1, 3, 5, 15, 14, 13, 8, 7, 9, 4, 12, 11, 2, 6, 10]) ∧
    ((List.range' 1 15).map (FieldConfig.log ⟨0x1F#64, 4⟩) =
      [0, 12, 1, 9, 2, 13, 7, 6, 8, 14, 11, 10, 5, 4, 3]) := by decide +kernel
theorem test_tables_p1 :
    FieldConfig.generator ⟨0x3#64, 1⟩ = 1 ∧ FieldConfig.generator ⟨0x2#64, 1⟩ = 1 ∧
    FieldConfig.alog ⟨0x2#64, 1⟩ 0 = 1 ∧ FieldConfig.log ⟨0x2#64, 1⟩ 1 = 0 := by decide +kernel
theorem test_generators :
    FieldConfig.generator ⟨0x7#64, 2⟩ = 2 ∧ FieldConfig.generator ⟨0x19#64, 4⟩ = 2 ∧
    FieldConfig.generator ⟨0x43#64, 6⟩ = 2 ∧ FieldConfig.generator ⟨0x11D#64, 8⟩ = 2 := by
  decide +kernel
theorem test_orders : aes.order 1 = some 1 ∧ aes.order 2 = some 51 ∧ aes.order 3 = some 255 := by
  decide +kernel

/-! ### Field commands (96_test_vectors_field.md section 2.7) -/

theorem test_fadd : after (loaded aes 0x57#64 0x83#64) 0x500000000000000000 = some (0xD4#64, 0#4, ok) := by decide +kernel
theorem test_fadd_range : after (loaded nibble 0xF#64 0x10#64) 0x500000000000000000 = some (0#64, 4#4, err 4#4) := by decide +kernel
theorem test_fmul : after (loaded aes 0x57#64 0x83#64) 0x510000000000000000 = some (0xC1#64, 0#4, ok) := by decide +kernel
theorem test_fmul_range_beside_zero : after (loaded aes 0x100#64 0x0#64) 0x510000000000000000 = some (0#64, 4#4, err 4#4) := by decide +kernel
theorem test_fdiv_negative_difference : after (loaded aes 0x1#64 0x2#64) 0x520000000000000000 = some (0x8D#64, 0#4, ok) := by decide +kernel
theorem test_fdiv_range_wins : after (loaded aes 0x100#64 0x0#64) 0x520000000000000000 = some (0#64, 4#4, err 4#4) := by decide +kernel
theorem test_fdiv_zero_by_zero : after (loaded aes 0x0#64 0x0#64) 0x520000000000000000 = some (0#64, 3#4, err 3#4) := by decide +kernel
theorem test_finv : after (loaded aes 0x53#64 0x0#64) 0x530000000000000000 = some (0xCA#64, 0#4, ok) := by decide +kernel
theorem test_finv_zero : after (loaded aes 0x0#64 0x0#64) 0x530000000000000000 = some (0#64, 3#4, err 3#4) := by decide +kernel
theorem test_fpow_reduces_exponent : after (loaded aes 0xFF#64 0xFFFFFFFFFFFFFFFE#64) 0x540000000000000000 = some (0x1C#64, 0#4, ok) := by decide +kernel
theorem test_fpow_zero_base_full_exponent : after (loaded aes 0x0#64 0xFF#64) 0x540000000000000000 = some (0x0#64, 0#4, ok) := by decide +kernel
theorem test_flog : after (loaded aes 0xF6#64 0x0#64) 0x580000000000000000 = some (254#64, 0#4, ok) := by decide +kernel
theorem test_flog_zero : after (loaded aes 0x0#64 0x0#64) 0x580000000000000000 = some (0#64, 4#4, err 4#4) := by decide +kernel
theorem test_fexp_last : after (loaded aes 0xFE#64 0x0#64) 0x590000000000000000 = some (0xF6#64, 0#4, ok) := by decide +kernel
theorem test_fexp_not_reduced : after (loaded aes 0xFF#64 0x0#64) 0x590000000000000000 = some (0#64, 4#4, err 4#4) := by decide +kernel
theorem test_fmul_nibble : after (loaded nibble 0x9#64 0x9#64) 0x510000000000000000 = some (0xD#64, 0#4, ok) := by decide +kernel
theorem test_fpow_bit : after (loaded bit 0x0#64 0x0#64) 0x540000000000000000 = some (0x1#64, 0#4, ok) := by decide +kernel

/-! ### The assembler (30_encoding.md R100 to R102; 95_test_vectors.md section 1.2) -/

theorem test_assemble :
    assembleLine "LDA 0xDEAD_BEEF_CAFE_F00D ; operand".toList = .ok [0x10DEADBEEFCAFEF00D#72] ∧
    assembleLine "LDB 0b10011".toList = .ok [0x110000000000000013#72] ∧
    assembleLine "PIRR 63".toList = .ok [0x48000000000000003F#72] ∧
    assembleLine "LDPR 0x10000000000000105".toList =
      .ok [0x130000000000000105#72, 0x140000000000000001#72] ∧
    assembleLine "PMULMOD".toList = .ok [0x410000000000000000#72, 0x420000000000000000#72] ∧
    assembleLine "; nothing".toList = .ok [] := by decide +kernel
theorem test_assemble_errors :
    assembleLine "PIRR 64".toList = .error .literalTooLarge ∧
    assembleLine "lda 1".toList = .error .unknownMnemonic ∧
    assembleLine "LDA".toList = .error .missingImmediate ∧
    assembleLine "NOP 0".toList = .error .unexpectedOperand ∧
    assembleLine "LDA 0x".toList = .error .badLiteral ∧
    assembleLine "LDA 1__0".toList = .error .badLiteral := by decide +kernel
theorem test_render :
    render 0b10011 = "x^4 + x + 1" ∧ render 0b1 = "1" ∧ render 0 = "0" ∧ render 0x2 = "x" ∧
    render 0x8000000000000003 = "x^63 + x + 1" := by decide +kernel

/-! ### The ports (30_encoding.md R94, R95; 70_reset_and_hazards.md R290 to R292) -/

/-- A unit with a response pending. -/
def pending : State := { mixed with rsp := ok 0x13#64 }

theorem test_word_waits_while_pending :
    next? (step (pending.setInputs [present 0x010000000000000000#72])) = some pending := by
  decide +kernel
theorem test_response_taken :
    next? (step (pending.setInputs [takeResponse])) =
      some { mixed with delivered := [⟨0#4, 0x13#64⟩] } := by decide +kernel
theorem test_reset_abandons_response :
    next? (step (pending.setInputs [raiseReset])) = some (State.resetOf aes) := by decide +kernel
theorem test_response_word :
    rspWord false pending = some 0x00000000000000013#68 ∧ rspWord true pending = none ∧
    Response.word ⟨4#4, 0#64⟩ = 0x40000000000000000#68 := by decide +kernel
theorem test_table_word_first_after_reset :
    decodeTableWord 72 0x530000000000000000 = some .finv ∧
    after State.reset 0x530000000000000000 = some (0#64, 3#4, err 3#4) := by decide +kernel

/-! ### Witnesses: for each statement with hypotheses, a state and operands that meet them together -/

/-- `R` and the response that a command leaves, for the witnesses. -/
def result (i : Instr) (s : State) : Option (Word × Option Response) :=
  (next? (exec i s)).map fun t => (t.r, t.rsp)

theorem witness_ResetCycleAbandonsEverything :
    (pending.setInputs [raiseReset]).field.legal = true ∧
    (pending.setInputs [raiseReset]).inputs = raiseReset :: [] ∧ raiseReset.rst = true := by
  decide +kernel
theorem witness_InstanceNeverChanges : ∃ t, step (pending.setInputs [raiseReset]) = .next t :=
  ⟨_, rfl⟩
theorem witness_IllegalPairNeverRuns :
    (State.resetOf ⟨0x11A#64, 8⟩).field.legal = false ∧ FieldConfig.legal ⟨0x3#64, 0⟩ = false ∧
    FieldConfig.legal ⟨0x11B#64, 64⟩ = false := by decide +kernel
/-- NWord: an immediate of one bit, at either end. -/
theorem witness_NWord : (1#64 : Word) ≠ 0#64 ∧ (0x8000000000000000#64 : Word) ≠ 0#64 := by decide
theorem witness_ReadsReturnInstanceConstants :
    (State.resetOf widest).field.legal = true ∧ (State.resetOf bit).field.legal = true := by
  decide +kernel
theorem witness_PmulWritesWholeProduct :
    (loaded aes 0#64 1#64).a = 0#64 ∧ (loaded aes 5#64 1#64).b = 1#64 := by decide
theorem witness_PredReducesProduct_zero : State.reset.m = 0#64 := by decide
theorem witness_PredReducesProduct_one :
    ({ State.reset with m := 1#64 } : State).m = 1#64 ∧ mixed.m ≠ 0#64 ∧
    ({ mixed with pr := 0x44#128 } : State).pr = mixed.m.setWidth 128 := by decide
theorem top_bit_of_two_pow (k : Nat) : IsTopBit (2 ^ k) k :=
  ⟨by simp, fun j h => by simp [Nat.testBit_two_pow]; omega⟩
theorem witness_PredReducesProduct_small :
    IsTopBit ({ State.reset with pr := 1#128, m := 2#64 } : State).pr.toNat 0 ∧
    IsTopBit ({ State.reset with pr := 1#128, m := 2#64 } : State).m.toNat 1 ∧ 0 < 1 :=
  ⟨top_bit_of_two_pow 0, top_bit_of_two_pow 1, by decide⟩
theorem witness_PdegFindsTopBit :
    State.reset.a = 0#64 ∧ (loaded aes 0x8000000000000000#64 0#64).a ≠ 0#64 := by decide
theorem witness_PirrAnswersOneOrZero : 63 < 64 ∧ 64 ≤ (64#64 : Word).toNat := by decide
/-- Also for FmulIsReducedProduct and InverseQuotientAndPower: `FullOrder aes` is in
`witness_full_order`, and the two together in `witness_field_corner_cases`. -/
theorem witness_field_operands_in_range :
    inField (loaded aes 0xFF#64 0xFF#64) (loaded aes 0xFF#64 0xFF#64).a ∧
    inField (loaded aes 0xFF#64 0xFF#64) (loaded aes 0xFF#64 0xFF#64).b ∧
    (loaded aes 0xFF#64 0xFF#64).a ≠ 0#64 ∧ (loaded aes 0xFF#64 0xFF#64).b ≠ 0#64 ∧
    (loaded aes 0xFF#64 0xFF#64).field.legal = true := by
  unfold inField
  decide +kernel
theorem witness_field_operand_out_of_range :
    ¬ inField (loaded aes 0x100#64 1#64) (loaded aes 0x100#64 1#64).a ∧
    (loaded aes 0x100#64 1#64).field.legal = true := by
  unfold inField
  decide +kernel
theorem witness_field_zero_operands :
    inField (loaded bit 1#64 0#64) (loaded bit 1#64 0#64).a ∧
    inField (loaded bit 1#64 0#64) (loaded bit 1#64 0#64).b ∧ (loaded bit 1#64 0#64).b = 0#64 ∧
    inField (loaded bit 0#64 1#64) (loaded bit 0#64 1#64).b ∧ (loaded bit 0#64 1#64).a = 0#64 ∧
    (loaded bit 0#64 1#64).b ≠ 0#64 ∧ (loaded bit 0#64 1#64).field.legal = true := by
  unfold inField
  decide +kernel
theorem witness_TableReadsReturnEntries_edges :
    groupOrder (loaded aes 255#64 0#64) ≤ (loaded aes 255#64 0#64).a.toNat ∧
    (loaded aes 254#64 0#64).a.toNat < groupOrder (loaded aes 254#64 0#64) ∧
    (loaded bit 0#64 0#64).a.toNat < groupOrder (loaded bit 0#64 0#64) ∧
    (loaded aes 255#64 0#64).field.legal = true := by decide +kernel
/-- The clauses on corner cases and examples of the field statements. -/
theorem witness_field_corner_cases :
    let s := loaded aes 3#64 3#64
    let t := loaded bit 1#64 1#64
    s.field = { modulus := 0x11B#64, degree := 8 } ∧ s.field.legal = true ∧ FullOrder s.field ∧
    inField s s.a ∧ s.a ≠ 0#64 ∧ s.b = s.a ∧ 2 ≤ s.field.degree ∧ s.a.toNat = s.field.generator ∧
    t.field.legal = true ∧ FullOrder t.field ∧ inField t t.a ∧ t.field.degree = 1 ∧ t.a = 1#64 ∧
    t.b = 1#64 ∧ t.b.toNat = groupOrder t := by
  unfold inField FullOrder
  decide +kernel
theorem witness_error_response :
    ∃ t rw, execWord 0xFF0000000000000000#72 mixed = .next t ∧ t.rsp = some rw ∧ rw.err ≠ 0#4 :=
  ⟨_, _, rfl, rfl, by decide⟩
theorem witness_data_response :
    ∃ t rw, execWord 0x200000000000000000#72 mixed = .next t ∧ t.rsp = some rw ∧ rw.data ≠ 0#64 ∧
      decode 0x200000000000000000#72 ≠ .ok .clre :=
  ⟨_, _, rfl, rfl, by decide, by decide⟩
theorem witness_clre_response :
    ∃ t rw, execWord 0x010000000000000000#72 mixed = .next t ∧ t.rsp = some rw ∧
      decode 0x010000000000000000#72 = .ok .clre :=
  ⟨_, _, rfl, rfl, by decide⟩
theorem witness_AccessMatrix_fail :
    ∃ t rw, execWord 0x530000000000000000#72 (loaded aes 0#64 0#64) = .next t ∧ t.rsp = some rw ∧
      rw.err ≠ 0#4 ∧ Reg.r ≠ .ecode :=
  ⟨_, _, rfl, rfl, by decide, by decide⟩
theorem witness_AccessMatrix_success :
    ∃ t rw, exec (.ldpl 5#64) mixed = .next t ∧ t.rsp = some rw ∧ rw.err = 0#4 ∧
      Reg.prh ∉ writesOf (.ldpl 5#64) :=
  ⟨_, _, rfl, rfl, by decide, by decide⟩
theorem witness_AccessMatrix_reads :
    mixed.field = (mixed.setB 9#64).field ∧
    (∀ reg ∈ readsOf .pdeg, reg.value mixed = reg.value (mixed.setB 9#64)) ∧
    ∃ t t' rw, exec .pdeg mixed = .next t ∧ exec .pdeg (mixed.setB 9#64) = .next t' ∧
      t.rsp = some rw ∧ rw.err = 0#4 ∧ Reg.r ∈ writesOf .pdeg :=
  ⟨rfl, by decide, _, _, _, rfl, rfl, rfl, by decide, by decide⟩
theorem witness_OtherCommandsIgnoreInstance : usesInstance (.pirr 8) = false := by decide
theorem witness_LegalCodesInvariant : pending.Inv ∧ ∃ t, step pending = .next t :=
  ⟨by decide, _, rfl⟩
theorem witness_DecodeEncodeRoundTrip : Instr.wf (.pirr 63) = true ∧ Instr.wf .nop = true := by
  decide
theorem witness_DecodedWordIsTheEncoding : decode 0x48000000000000003F#72 = .ok (.pirr 63) := by
  decide
theorem witness_IllegalCommandWords :
    0x02#8 ∉ opcodes ∧ 0xFF#8 ∉ opcodes ∧ 0x00#8 ∈ opcodesN ∧ 0x59#8 ∈ opcodesN ∧
    (64#64 : Word).extractLsb' 6 58 ≠ 0#58 := by decide +kernel
theorem witness_StepRunsDecodedCommand :
    let s := mixed.setInputs [present 0x48000000000000003F#72]
    s.field.legal = true ∧ s.inputs = present 0x48000000000000003F#72 :: [] ∧ s.rsp = none ∧
    (present 0x48000000000000003F#72).rst = false ∧ (present 0x48000000000000003F#72).cmdValid = true ∧
    decode (present 0x48000000000000003F#72).cmdWord = .ok (.pirr 63) ∧
    decode (present 0x480000000000000040#72).cmdWord = .error (.wideImmediate 0x48#8) := by
  decide +kernel
theorem witness_PendingResponseBlocksPort :
    let s := pending.setInputs [takeResponse]
    s.field.legal = true ∧ s.inputs = takeResponse :: [] ∧ takeResponse.rst = false ∧
    s.rsp = some ⟨0#4, 0x13#64⟩ := by decide +kernel
theorem witness_SilentHostLeavesUnitIdle :
    let s := mixed.setInputs [takeResponse]
    mixed.field.legal = true ∧ mixed.inputs = [] ∧ s.inputs = takeResponse :: [] ∧
    takeResponse.rst = false ∧ takeResponse.cmdValid = false ∧ s.rsp = none := by decide +kernel
theorem witness_UntakenResponseStallsUnit :
    let s := pending.setInputs [present 0#72, present 0#72]
    s.field.legal = true ∧ s.rsp = some ⟨0#4, 0x13#64⟩ ∧ noReset s.inputs = true ∧
    ∀ input ∈ s.inputs, input.rspReady = false := by decide +kernel
theorem witness_HandshakeRefinesRun :
    let s := mixed.setInputs [present 0#72, present 0x010000000000000000#72, takeResponse]
    s.field.legal = true ∧ s.rsp = none ∧ noReset s.inputs = true ∧
    acceptedWords false s.inputs = [0#72] := by decide +kernel
theorem witness_top_bits : IsTopBit 1 0 ∧ IsTopBit (2 ^ 63) 63 :=
  ⟨top_bit_of_two_pow 0, top_bit_of_two_pow 63⟩
theorem witness_PmodFollowsLoop : IsTopBit 2 1 ∧ IsTopBit 4 2 ∧ 1 ≤ 2 ∧ IsTopBit 1 0 ∧ 0 < 1 :=
  ⟨top_bit_of_two_pow 1, top_bit_of_two_pow 2, by decide, top_bit_of_two_pow 0, by decide⟩
theorem witness_PmodLaws :
    IsTopBit 2 1 ∧ 2 ^ 128 - 1 < 2 ^ 128 ∧ 1 < 2 ^ 1 ∧ 3 = clmul 1 2 ^^^ 1 :=
  ⟨top_bit_of_two_pow 1, by decide, by decide, by decide⟩
theorem witness_ClmulClosedForm : 2 ^ 64 - 1 < 2 ^ 64 := by decide
theorem witness_PgcdIsGreatestCommonDivisor : 6 = clmul 2 3 ∧ 10 = clmul 6 3 := by decide +kernel
theorem witness_SquareChainIsPowerOfX : 2 ≤ 2 ∧ IsTopBit 4 2 := ⟨by decide, top_bit_of_two_pow 2⟩
theorem witness_PrimeDivisorsAreThePrimes : 1 ≤ 63 := by decide
theorem witness_RabinTestIsCorrect : 0x8000000000000003 < 2 ^ 64 ∧ 63 ≤ 63 := by decide
theorem witness_full_order :
    aes.legal = true ∧ FullOrder aes ∧ bit.legal = true ∧ FullOrder bit := by
  unfold FullOrder
  decide +kernel
theorem witness_ResiduesHaveNoZeroDivisors :
    aes.legal = true ∧ 255 < 2 ^ aes.degree ∧ 0 < 2 ^ aes.degree ∧ aes.fprod 255 0 = 0 := by
  decide +kernel
theorem witness_OrderIsLeastExponent :
    aes.legal = true ∧ 1 ≤ 255 ∧ 255 < 2 ^ aes.degree ∧ aes.order 1 = some 1 := by decide +kernel
theorem witness_GeneratorIsLeastOfFullOrder :
    aes.legal = true ∧ ∃ x, 1 ≤ x ∧ x ≤ 2 ^ aes.degree - 1 ∧ aes.order x = some (2 ^ aes.degree - 1) :=
  ⟨by decide +kernel, 3, by decide, by decide, by decide +kernel⟩
theorem witness_TablesEnumerateField : aes.legal = true ∧ FullOrder aes ∧ 254 < 2 ^ aes.degree - 1 ∧
    253 + 1 < 2 ^ aes.degree - 1 ∧ 255 ≤ 2 ^ aes.degree - 1 ∧ 2 ≤ aes.degree := by
  unfold FullOrder
  decide +kernel
theorem witness_SourcePropertiesOfField :
    let s := loaded aes 0xFF#64 0xFF#64
    s.field.legal = true ∧ FullOrder s.field ∧ inField s s.a ∧ inField s s.b ∧
    s.a ≠ 0#64 ∧ s.b.toNat = groupOrder s ∧ s.b ≠ 0#64 := by
  unfold inField FullOrder
  decide +kernel
theorem witness_PseudoCommandEffects :
    mixed.rsp = none ∧ mixed.m ≠ 0#64 ∧ State.reset.rsp = none ∧ State.reset.m = 0#64 := by decide
theorem witness_DecimalImmediatesAssemble :
    ("LDA ", 0x10#8) ∈ [("LDA ", 0x10#8), ("LDB ", 0x11#8), ("LDM ", 0x12#8), ("LDPL ", 0x13#8),
      ("LDPH ", (0x14#8 : Opcode))] ∧
    assembleLine "LDA 18446744073709551615".toList = .ok [0x10FFFFFFFFFFFFFFFF#72] ∧
    assembleLine "LDA 18446744073709551616".toList = .error .literalTooLarge := by decide +kernel

end Sys2Proof.Tests
end

section
/-! The settled obligation on 00_scope.md R13. -/

open Sys2Proof.Machine

/-- Settles O26. A word decodes to a command or raises `ERR_ILLEGAL`, and both end in one of the ways
of `Ends`: those leave a response and touch neither the instance nor the host's side. -/
theorem everyWordAnswers : Obligations.EveryWordAnswers := by
  intro cw s
  obtain ⟨t, hnext, hends⟩ := execWord_ends cw s
  obtain ⟨rw, hrsp⟩ := hends.response
  exact ⟨t, rw, hnext, hrsp, hends.frame⟩

end

section
/-! The invariant of the legal codes (10_state.md R45; 60_exceptions.md R260; 30_encoding.md R84):
every end of a command keeps it, and so do reset, delivery and idling. -/

namespace Sys2Proof.Machine

theorem latchError_le_four {c : ErrorCode} (e : Err) (h : c.toNat ≤ 4) :
    (latchError c e).toNat ≤ 4 := by
  by_cases hc : c = 0#4
  · rw [hc, latchError_of_zero]
    exact errorCode_le_four e
  · rwa [latchError_of_ne_zero e hc]

theorem Response.legal_of_error (e : Err) :
    Response.legal { err := errorCode e, data := 0#64 } = true := by
  simp [Response.legal, errorCode_le_four]

theorem Response.legal_of_success (v : Word) :
    Response.legal { err := 0#4, data := v } = true := by
  simp [Response.legal]

theorem OneWrite.ecode {s u : State} (h : OneWrite s u) : u.ecode = s.ecode ∨ u.ecode = 0#4 := by
  obtain rfl | ⟨w, rfl⟩ | ⟨w, rfl⟩ | ⟨w, rfl⟩ | ⟨w, rfl⟩ | ⟨w, rfl⟩ | rfl := h <;> simp

theorem Ends.ecode_le_four {s t : State} (h : Ends s t) (hs : s.ecode.toNat ≤ 4) :
    t.ecode.toNat ≤ 4 := by
  obtain ⟨e, he⟩ | ⟨u, v, hu, rfl⟩ := h
  · obtain rfl := raise_eq_next.1 he
    exact latchError_le_four e hs
  · obtain hkept | hcleared := hu.ecode
    · simpa [hkept] using hs
    · simp [hcleared]

theorem Ends.response_legal {s t : State} (h : Ends s t) : ∀ rw ∈ t.rsp, rw.legal = true := by
  obtain ⟨e, he⟩ | ⟨u, v, -, rfl⟩ := h
  · obtain rfl := raise_eq_next.1 he
    simpa using Response.legal_of_error e
  · simpa using Response.legal_of_success v

/-- A command replaces the pending response and leaves the stream as it was. -/
theorem Ends.inv {s t : State} (h : Ends s t) (hs : s.Inv) : t.Inv := by
  obtain ⟨hecode, hresponses⟩ := hs
  obtain ⟨-, -, hdelivered⟩ := h.frame
  refine ⟨h.ecode_le_four hecode, fun rw hrw => ?_⟩
  rw [hdelivered, List.mem_append, Option.mem_toList] at hrw
  obtain hpending | hold := hrw
  · exact h.response_legal rw hpending
  · exact hresponses rw (List.mem_append_right _ hold)

/-- The inversion lemma of `execWord`. -/
theorem execWord_next_cases {cw : CommandWord} {s t : State} (h : execWord cw s = .next t) :
    Ends s t := by
  obtain ⟨u, hu, hends⟩ := execWord_ends cw s
  cases hu.symm.trans h
  exact hends

theorem execWord_inv {cw : CommandWord} {s t : State} (h : execWord cw s = .next t) (hs : s.Inv) :
    t.Inv :=
  (execWord_next_cases h).inv hs

theorem resetOf_inv (c : FieldConfig) : (State.resetOf c).Inv := ⟨by simp, by simp⟩

theorem setInputs_inv {s : State} (l : List PortInput) (hs : s.Inv) : (s.setInputs l).Inv := hs

theorem deliver_inv {s : State} (hs : s.Inv) : (deliver s).Inv := by
  obtain ⟨hecode, hresponses⟩ := hs
  refine ⟨hecode, fun rw hrw => hresponses rw ?_⟩
  simpa [deliver, or_comm] using hrw

theorem cycle_inv {input : PortInput} {s t : State} (h : cycle input s = .next t) (hs : s.Inv) :
    t.Inv := by
  obtain ⟨-, rfl⟩ | ⟨-, -, -, hexec⟩ | ⟨-, -, -, rfl⟩ | ⟨-, rfl⟩ := cycle_next_cases h
  · exact setInputs_inv s.inputs (resetOf_inv s.field)
  · exact execWord_inv hexec hs
  · exact deliver_inv hs
  · exact hs

end Sys2Proof.Machine

open Sys2Proof.Machine

/-- Settles O30. A step idles or is one cycle, and each of the four things a cycle can do keeps the
invariant. -/
theorem legalCodesInvariant : Obligations.LegalCodesInvariant := by
  intro s t hs hstep
  obtain ⟨-, ⟨-, rfl⟩ | ⟨input, rest, -, hcycle⟩⟩ := step_next_cases hstep
  · exact hs
  · exact cycle_inv hcycle (setInputs_inv rest hs)

/-- Settles O31. The reset state of every instance meets the invariant. -/
theorem legalCodesAtReset : Obligations.LegalCodesAtReset :=
  resetOf_inv Sys2Proof.FieldConfig.standard

end

section
/-! The instance and the reset state (10_state.md R30, R50; 43_field_build.md R209). -/

namespace Sys2Proof.Machine

@[simp] theorem deliver_field (s : State) : (deliver s).field = s.field := rfl

@[simp] theorem resetUnit_field (s : State) : (resetUnit s).field = s.field := rfl

theorem execWord_field {cw : CommandWord} {s t : State} (h : execWord cw s = .next t) :
    t.field = s.field := by
  obtain ⟨hfield, -, -⟩ := (execWord_next_cases h).frame
  exact hfield

theorem cycle_field {input : PortInput} {s t : State} (h : cycle input s = .next t) :
    t.field = s.field := by
  obtain ⟨-, rfl⟩ | ⟨-, -, -, hexec⟩ | ⟨-, -, -, rfl⟩ | ⟨-, rfl⟩ := cycle_next_cases h
  · exact resetUnit_field s
  · exact execWord_field hexec
  · exact deliver_field s
  · rfl

theorem step_field {s t : State} (h : step s = .next t) : t.field = s.field := by
  obtain ⟨-, ⟨-, rfl⟩ | ⟨input, rest, -, hcycle⟩⟩ := step_next_cases h
  · rfl
  · simpa using cycle_field hcycle

theorem standard_legal : FieldConfig.standard.legal = true := by decide +kernel

end Sys2Proof.Machine

open Sys2Proof.Machine

/-- Settles O3. No cycle writes the pair, and the tables are functions of the pair. -/
theorem instanceNeverChanges : Obligations.InstanceNeverChanges := by
  intro s t hstep
  have hfield := step_field hstep
  exact ⟨hfield, fun rom index => by rw [hfield]⟩

/-- Settles O1. The first part is the definition of the reset state; `State.reset` is that of the pair
`(0x11B, 8)`, which passes the check of an instance. -/
theorem resetStateIsAllZero : Obligations.ResetStateIsAllZero :=
  ⟨fun _ => ⟨rfl, rfl, rfl, rfl, rfl, rfl, rfl, rfl⟩,
    Sys2Proof.FieldConfig.standard, standard_legal, rfl⟩

end

section
/-! The access matrix (10_state.md R52). Two runs of one command are compared: from states that agree
on what it reads they end alike, and each leaves the registers outside its written entries alone. -/

namespace Sys2Proof.Claims

open Sys2Proof.Machine

theorem Reg.value_a_inj {s s' : State} : Reg.a.value s = Reg.a.value s' ↔ s.a = s'.a :=
  BitVec.toNat_inj

theorem Reg.value_b_inj {s s' : State} : Reg.b.value s = Reg.b.value s' ↔ s.b = s'.b :=
  BitVec.toNat_inj

theorem Reg.value_m_inj {s s' : State} : Reg.m.value s = Reg.m.value s' ↔ s.m = s'.m :=
  BitVec.toNat_inj

theorem Reg.value_r_inj {s s' : State} : Reg.r.value s = Reg.r.value s' ↔ s.r = s'.r :=
  BitVec.toNat_inj

theorem Reg.value_ecode_inj {s s' : State} :
    Reg.ecode.value s = Reg.ecode.value s' ↔ s.ecode = s'.ecode :=
  BitVec.toNat_inj

theorem Reg.value_prl_inj {s s' : State} :
    Reg.prl.value s = Reg.prl.value s' ↔ prLow s.pr = prLow s'.pr :=
  BitVec.toNat_inj

theorem Reg.value_prh_inj {s s' : State} :
    Reg.prh.value s = Reg.prh.value s' ↔ prHigh s.pr = prHigh s'.pr :=
  BitVec.toNat_inj

theorem Reg.value_setRsp (reg : Reg) (s : State) (v : Option Response) :
    reg.value (s.setRsp v) = reg.value s := by
  cases reg <;> rfl

/-- `PR` is its two halves (20_memory.md R68). -/
theorem pr_eq_of_halves {p q : Product} (hlow : prLow p = prLow q) (hhigh : prHigh p = prHigh q) :
    p = q := by
  rw [← prOfHalves_prHigh_prLow p, hlow, hhigh, prOfHalves_prHigh_prLow]

/-- `f` writes the registers of `W`, with contents that do not depend on the state, and no other. -/
def Writes (W : List Reg) (f : State → State) : Prop :=
  (∀ s, ∀ reg ∉ W, reg.value (f s) = reg.value s) ∧
    ∀ s s', ∀ reg ∈ W, reg.value (f s) = reg.value (f s')

theorem writes_nothing : Writes [] id := ⟨fun _ _ _ => rfl, by simp⟩

theorem writes_setA (v : Word) : Writes [.a] (·.setA v) :=
  ⟨fun s reg h => by cases reg <;> simp_all [Reg.value], by simp [Reg.value]⟩

theorem writes_setB (v : Word) : Writes [.b] (·.setB v) :=
  ⟨fun s reg h => by cases reg <;> simp_all [Reg.value], by simp [Reg.value]⟩

theorem writes_setM (v : Word) : Writes [.m] (·.setM v) :=
  ⟨fun s reg h => by cases reg <;> simp_all [Reg.value], by simp [Reg.value]⟩

theorem writes_setR (v : Word) : Writes [.r] (·.setR v) :=
  ⟨fun s reg h => by cases reg <;> simp_all [Reg.value], by simp [Reg.value]⟩

theorem writes_setEcode (v : ErrorCode) : Writes [.ecode] (·.setEcode v) :=
  ⟨fun s reg h => by cases reg <;> simp_all [Reg.value], by simp [Reg.value]⟩

theorem writes_setPr (v : Product) : Writes [.prl, .prh] (·.setPr v) :=
  ⟨fun s reg h => by cases reg <;> simp_all [Reg.value], by simp [Reg.value]⟩

theorem writes_low_half (v : Word) :
    Writes [.prl] fun s => s.setPr (prOfHalves (prHigh s.pr) v) := by
  refine ⟨fun s reg h => ?_, fun s s' reg h => ?_⟩
  · cases reg with
    | prl => simp at h
    | prh => exact Reg.value_prh_inj.2 (prHigh_prOfHalves _ _)
    | _ => rfl
  · obtain rfl := List.mem_singleton.1 h
    exact Reg.value_prl_inj.2 ((prLow_prOfHalves _ _).trans (prLow_prOfHalves _ _).symm)

theorem writes_high_half (v : Word) :
    Writes [.prh] fun s => s.setPr (prOfHalves v (prLow s.pr)) := by
  refine ⟨fun s reg h => ?_, fun s s' reg h => ?_⟩
  · cases reg with
    | prh => simp at h
    | prl => exact Reg.value_prl_inj.2 (prLow_prOfHalves _ _)
    | _ => rfl
  · obtain rfl := List.mem_singleton.1 h
    exact Reg.value_prh_inj.2 ((prHigh_prOfHalves _ _).trans (prHigh_prOfHalves _ _).symm)

/-- Two runs, from `s` and from `s'`, end alike: both in the same error, or both in success with the
same data after the same write of the registers of `W`. -/
def EndAlike (W : List Reg) (s s' : State) (o o' : Result) : Prop :=
  (∃ e, o = raise e s ∧ o' = raise e s') ∨
    ∃ f v, Writes W f ∧ o = answer v (f s) ∧ o' = answer v (f s')

section

variable {W : List Reg} {s s' : State}

theorem endAlike_raise (e : Err) : EndAlike W s s' (raise e s) (raise e s') :=
  .inl ⟨e, rfl, rfl⟩

theorem endAlike_answer {v v' : Word} (h : v = v') :
    EndAlike [] s s' (answer v s) (answer v' s') :=
  .inr ⟨id, v, writes_nothing, rfl, h ▸ rfl⟩

theorem endAlike_complete {f : State → State} (h : Writes W f) :
    EndAlike W s s' (complete (f s)) (complete (f s')) :=
  .inr ⟨f, 0#64, h, rfl, rfl⟩

theorem endAlike_writeResult (v : Word) : EndAlike [.r] s s' (writeResult v s) (writeResult v s') :=
  endAlike_complete (writes_setR v)

theorem endAlike_ite {p : Prop} [Decidable p] {x x' y y' : Result} (hx : EndAlike W s s' x x')
    (hy : EndAlike W s s' y y') :
    EndAlike W s s' (if p then x else y) (if p then x' else y') := by
  split <;> assumption

end

/-- Noninterference and frame of all 33 commands at once: with the read registers equal, the two
meanings test the same conditions and compute the same values. -/
theorem exec_endAlike (i : Instr) {s s' : State} (hfield : s.field = s'.field)
    (hreads : ∀ reg ∈ readsOf i, reg.value s = reg.value s') :
    EndAlike (writesOf i) s s' (exec i s) (exec i s') := by
  cases i <;>
    simp only [readsOf, List.forall_mem_cons, List.not_mem_nil, false_implies, implies_true, and_true,
      Reg.value_a_inj, Reg.value_b_inj, Reg.value_m_inj, Reg.value_r_inj, Reg.value_ecode_inj,
      Reg.value_prl_inj, Reg.value_prh_inj] at hreads
  case nop => exact endAlike_complete writes_nothing
  case clre => exact endAlike_complete (writes_setEcode okCode)
  case lda imm64 => exact endAlike_complete (writes_setA imm64)
  case ldb imm64 => exact endAlike_complete (writes_setB imm64)
  case ldm imm64 => exact endAlike_complete (writes_setM imm64)
  case ldpl imm64 => exact endAlike_complete (writes_low_half imm64)
  case ldph imm64 => exact endAlike_complete (writes_high_half imm64)
  case mra =>
    simp only [exec, execMra, hreads]
    exact endAlike_complete (writes_setA s'.r)
  case mrb =>
    simp only [exec, execMrb, hreads]
    exact endAlike_complete (writes_setB s'.r)
  case mrm =>
    simp only [exec, execMrm, hreads]
    exact endAlike_complete (writes_setM s'.r)
  case mrp =>
    simp only [exec, execMrp, hreads]
    exact endAlike_complete (writes_setPr (s'.r.setWidth 128))
  case rdr | rda | rdb | rdm | rdpl | rdph => exact endAlike_answer hreads
  case rdst => exact endAlike_answer (congrArg _ hreads)
  case rdfm | rdfp | rdfg => exact endAlike_answer (by rw [hfield])
  case padd =>
    simp only [exec, execPadd, hreads]
    exact endAlike_writeResult _
  case pmul =>
    simp only [exec, execPmul, hreads]
    exact endAlike_complete (writes_setPr _)
  case pred =>
    obtain ⟨hm, hlow, hhigh⟩ := hreads
    simp only [exec, execPred, hm, pr_eq_of_halves hlow hhigh]
    exact endAlike_ite (endAlike_raise .zmod) (endAlike_writeResult _)
  case pdeg =>
    simp only [exec, execPdeg, hreads]
    split <;> exact endAlike_writeResult _
  case pirr p6 =>
    simp only [exec, execPirr, hreads]
    exact endAlike_ite (endAlike_writeResult 1#64) (endAlike_writeResult 0#64)
  case fadd =>
    simp only [exec, execFadd, hfield, hreads]
    exact endAlike_ite (endAlike_writeResult _) (endAlike_raise .range)
  case fmul =>
    simp only [exec, execFmul, hfield, hreads]
    exact endAlike_ite (endAlike_ite (endAlike_writeResult 0#64) (endAlike_writeResult _))
      (endAlike_raise .range)
  case fdiv =>
    simp only [exec, execFdiv, hfield, hreads]
    exact endAlike_ite (endAlike_ite (endAlike_raise .divz)
      (endAlike_ite (endAlike_writeResult 0#64) (endAlike_writeResult _))) (endAlike_raise .range)
  case finv =>
    simp only [exec, execFinv, hfield, hreads]
    exact endAlike_ite (endAlike_ite (endAlike_raise .divz) (endAlike_writeResult _))
      (endAlike_raise .range)
  case fpow =>
    simp only [exec, execFpow, hfield, hreads]
    exact endAlike_ite (endAlike_ite (endAlike_writeResult 1#64)
      (endAlike_ite (endAlike_writeResult 0#64) (endAlike_writeResult _))) (endAlike_raise .range)
  case flog =>
    simp only [exec, execFlog, hfield, hreads]
    exact endAlike_ite (endAlike_writeResult _) (endAlike_raise .range)
  case fexp =>
    simp only [exec, execFexp, hfield, hreads]
    exact endAlike_ite (endAlike_writeResult _) (endAlike_raise .range)

/-- A command that fails writes no register but `ECODE` (60_exceptions.md R266). -/
theorem Reg.value_of_error {s t : State} {rw : Response} {reg : Reg} (h : Ends s t)
    (hrsp : t.rsp = some rw) (herr : rw.err ≠ 0#4) (hreg : reg ≠ .ecode) :
    reg.value t = reg.value s := by
  obtain ⟨e, he⟩ | ⟨u, v, -, rfl⟩ := h
  · obtain rfl := raise_eq_next.1 he
    rw [Reg.value_setRsp]
    exact (writes_setEcode _).1 s reg (by simpa using hreg)
  · cases hrsp
    exact absurd rfl herr

theorem EndAlike.rsp_eq {W : List Reg} {s s' t t' : State}
    (h : EndAlike W s s' (.next t) (.next t')) : t.rsp = t'.rsp := by
  obtain ⟨e, he, he'⟩ | ⟨f, v, -, ha, ha'⟩ := h
  · rw [raise_eq_next.1 he.symm, raise_eq_next.1 he'.symm, State.setRsp_rsp, State.setRsp_rsp]
  · rw [answer_eq_next.1 ha.symm, answer_eq_next.1 ha'.symm, State.setRsp_rsp, State.setRsp_rsp]

/-- On success both runs made the same write of the registers of `W`. -/
theorem EndAlike.value_of_success {W : List Reg} {s s' t t' : State} {rw : Response}
    (h : EndAlike W s s' (.next t) (.next t')) (hrsp : t.rsp = some rw) (herr : rw.err = 0#4) :
    ∃ f, Writes W f ∧ ∀ reg, Reg.value reg t = reg.value (f s) ∧ reg.value t' = reg.value (f s') := by
  obtain ⟨e, he, -⟩ | ⟨f, v, hf, ha, ha'⟩ := h
  · obtain rfl := raise_eq_next.1 he.symm
    cases hrsp
    exact absurd herr (errorCode_ne_zero e)
  · obtain rfl := answer_eq_next.1 ha.symm
    obtain rfl := answer_eq_next.1 ha'.symm
    exact ⟨f, hf, fun reg => ⟨Reg.value_setRsp reg (f s) _, Reg.value_setRsp reg (f s') _⟩⟩

end Sys2Proof.Claims

open Sys2Proof.Machine Sys2Proof.Claims

/-- Settles O28. A failing word only latches its code; the other two clauses are `exec_endAlike`, for
one run beside itself and for two runs. -/
theorem accessMatrix : Obligations.AccessMatrix := by
  refine ⟨fun cw s t rw reg hnext hrsp herr hreg => ?_, fun i s t rw reg hnext hrsp herr hreg => ?_,
    fun i s s' t t' hfield hreads hnext hnext' => ?_⟩
  · exact Reg.value_of_error (execWord_next_cases hnext) hrsp herr hreg
  · have halike := exec_endAlike i (s := s) rfl fun _ _ => rfl
    rw [hnext] at halike
    obtain ⟨f, hf, hvalue⟩ := halike.value_of_success hrsp herr
    rw [(hvalue reg).1, hf.1 s reg hreg]
  · have halike := exec_endAlike i hfield hreads
    rw [hnext, hnext'] at halike
    refine ⟨halike.rsp_eq, fun rw hrsp herr reg hreg => ?_⟩
    obtain ⟨f, hf, hvalue⟩ := halike.value_of_success hrsp herr
    rw [(hvalue reg).1, (hvalue reg).2, hf.2 s s' reg hreg]

end

section
/-! Encoding and decoding are inverse to each other (30_encoding.md R80 to R83, R89, R90). -/

namespace Sys2Proof

/-- One fact about all 33 commands: the word of a well-formed command selects it, by the rule of its
format. -/
theorem decode_encode {i : Instr} (hwf : i.wf = true) : decode (encode i) = .ok i := by
  cases i with
  | lda imm64 | ldb imm64 | ldm imm64 | ldpl imm64 | ldph imm64 => exact decode_of_shape_d rfl imm64
  | pirr p6 =>
    have hp6 : p6 < 64 := of_decide_eq_true hwf
    refine (decode_of_shape_s (op := 0x48#8) rfl (0#58 ++ BitVec.ofNat 6 p6)).trans ?_
    rw [smallImmediate_high, smallImmediate_low, if_pos rfl, BitVec.toNat_ofNat,
      Nat.mod_eq_of_lt hp6]
  | _ => exact (decode_of_shape_n rfl 0#64).trans (if_pos rfl)

/-- A small immediate is its six low bits where the others are zero (30_encoding.md R81). -/
theorem smallImmediate_of_high {imm : Word} (h : imm.extractLsb' 6 58 = 0#58) :
    (0#58 ++ imm.extractLsb' 0 6 : Word) = imm := by
  rw [← h]
  exact BitVec.extractLsb'_append_extractLsb'

theorem smallImmediate_lt (p6 : BitVec 6) : p6.toNat < 64 := p6.isLt

/-- The commands of a shape are well formed, and their words carry the opcode `op` and the immediate
that the shape's format gives them. -/
def CommandShape.EncodesUnder (op : Opcode) (shape : CommandShape) : Prop :=
  match shape with
  | .n i => i.wf = true ∧ encode i = op ++ 0#64
  | .d command => ∀ imm : Word, (command imm).wf = true ∧ encode (command imm) = op ++ imm
  | .s command =>
    ∀ p6 : BitVec 6, (command p6.toNat).wf = true ∧
      encode (command p6.toNat) = op ++ (0#58 ++ p6 : Word)

/-- Every row of the opcode map is a row of the encoder. -/
theorem encodesUnder_of_opcodeMap {op : Opcode} {shape : CommandShape}
    (h : opcodeMap op = some shape) : shape.EncodesUnder op := by
  unfold opcodeMap at h
  split at h <;> cases h <;>
    simp [CommandShape.EncodesUnder, Instr.wf, encode, Instr.opcode, Instr.immediate,
      smallImmediate_lt]

/-- The inverse direction of `decode_encode`, by the format of the word's opcode. -/
theorem encode_of_decode {cw : CommandWord} {i : Instr} (h : decode cw = .ok i) :
    i.wf = true ∧ encode i = cw := by
  rw [← append_fields cw] at h ⊢
  generalize opcodeField cw = op at h ⊢
  generalize immediateField cw = imm at h ⊢
  cases hmap : opcodeMap op with
  | none =>
    rw [decode_of_reserved hmap] at h
    cases h
  | some shape =>
    have hrow := encodesUnder_of_opcodeMap hmap
    cases shape with
    | n command =>
      rw [decode_of_shape_n hmap] at h
      split at h
      · cases h
        rwa [‹imm = 0#64›]
      · cases h
    | d command =>
      rw [decode_of_shape_d hmap] at h
      cases h
      exact hrow imm
    | s command =>
      rw [decode_of_shape_s hmap] at h
      split at h
      · cases h
        have hword := hrow (imm.extractLsb' 0 6)
        rwa [smallImmediate_of_high ‹_›] at hword
      · cases h

end Sys2Proof

/-- Settles O32. The word of a command holds its opcode and its immediate, and the rule of its format
reads them back. -/
theorem decodeEncodeRoundTrip : Obligations.DecodeEncodeRoundTrip := fun _ => Sys2Proof.decode_encode

/-- Settles O33. Each row of the opcode map is a row of the encoder, and a format only accepts an
immediate whose reserved bits are zero. -/
theorem decodedWordIsTheEncoding : Obligations.DecodedWordIsTheEncoding := fun _ _ =>
  Sys2Proof.encode_of_decode

/-- Settles O35. Eight closed words. -/
theorem writtenOutWordsDecode : Obligations.WrittenOutWordsDecode := by
  unfold Obligations.WrittenOutWordsDecode
  decide

end

section
/-! Words that select no command (30_encoding.md R82, R91; 60_exceptions.md R261). -/

namespace Sys2Proof.Claims

open Sys2Proof.Machine

/-- Error entry, in the words of the statements (60_exceptions.md R266). -/
theorem raise_eq_failed (e : Err) (s : State) : raise e s = .next (failed (errorCode e) s) := rfl

theorem execWord_of_illegal_failed {cw : CommandWord} {e : DecodeError} (h : decode cw = .error e)
    (s : State) : execWord cw s = .next (failed 1#4 s) :=
  execWord_of_illegal h s

theorem mem_opcodes_of_opcodeMap {op : Opcode} {shape : CommandShape}
    (h : opcodeMap op = some shape) : op ∈ opcodes := by
  unfold opcodeMap at h
  split at h <;> cases h <;> decide

/-- 30_encoding.md R91. -/
theorem opcodeMap_of_not_mem {op : Opcode} (h : op ∉ opcodes) : opcodeMap op = none := by
  cases hmap : opcodeMap op with
  | none => rfl
  | some shape => exact absurd (mem_opcodes_of_opcodeMap hmap) h

/-- 30_encoding.md R81. -/
theorem opcodeMap_of_mem_opcodesN {op : Opcode} (h : op ∈ opcodesN) :
    ∃ i, opcodeMap op = some (.n i) := by
  fin_cases h <;> exact ⟨_, rfl⟩

end Sys2Proof.Claims

open Sys2Proof Sys2Proof.Machine Sys2Proof.Claims

/-- Settles O34. In each of the three cases decode answers with an error, and every decode error is the
entry of `ERR_ILLEGAL`. -/
theorem illegalCommandWords : Obligations.IllegalCommandWords := by
  refine ⟨fun op imm s hop => ?_, by decide +kernel, fun op imm s hop himm => ?_,
    fun imm s himm => ?_⟩
  · have hdecode := decode_of_reserved (opcodeMap_of_not_mem hop) imm
    exact ⟨hdecode, execWord_of_illegal_failed hdecode s⟩
  · obtain ⟨i, hmap⟩ := opcodeMap_of_mem_opcodesN hop
    exact execWord_of_illegal_failed ((decode_of_shape_n hmap imm).trans (if_neg himm)) s
  · exact execWord_of_illegal_failed
      ((decode_of_shape_s (op := 0x48#8) rfl imm).trans (if_neg himm)) s

end

section
/-! The response word (30_encoding.md R84, R85): its layout, and that only a read returns data. -/

namespace Sys2Proof.Claims

open Sys2Proof.Machine

/-- What the end `o` of a command puts on the response port carries no data. -/
def NoData (o : Result) : Prop := ∀ t, o = .next t → ∀ rw ∈ t.rsp, rw.data = 0#64

theorem noData_raise (e : Err) (s : State) : NoData (raise e s) := by
  intro t ht rw hrw
  obtain rfl := raise_eq_next.1 ht
  cases hrw
  rfl

theorem noData_complete (s : State) : NoData (complete s) := by
  intro t ht rw hrw
  obtain rfl := complete_eq_next.1 ht
  cases hrw
  rfl

theorem noData_writeResult (v : Word) (s : State) : NoData (writeResult v s) :=
  noData_complete (s.setR v)

theorem noData_ite {p : Prop} [Decidable p] {x y : Result} (hx : NoData x) (hy : NoData y) :
    NoData (if p then x else y) := by
  split <;> assumption

/-- 30_encoding.md R85. -/
theorem exec_noData (i : Instr) (s : State) (h : returnsData i = false) : NoData (exec i s) := by
  cases i with
  | rdr | rda | rdb | rdm | rdpl | rdph | rdst | rdfm | rdfp | rdfg => cases h
  | padd => exact noData_writeResult _ s
  | pred => exact noData_ite (noData_raise _ _) (noData_writeResult _ _)
  | pdeg =>
    simp only [exec, execPdeg]
    split <;> exact noData_writeResult _ s
  | pirr p6 => exact noData_ite (noData_writeResult _ _) (noData_writeResult _ _)
  | fadd | flog | fexp => exact noData_ite (noData_writeResult _ _) (noData_raise _ _)
  | fmul =>
    exact noData_ite (noData_ite (noData_writeResult _ _) (noData_writeResult _ _)) (noData_raise _ _)
  | fdiv =>
    exact noData_ite (noData_ite (noData_raise _ _)
      (noData_ite (noData_writeResult _ _) (noData_writeResult _ _))) (noData_raise _ _)
  | finv =>
    exact noData_ite (noData_ite (noData_raise _ _) (noData_writeResult _ _)) (noData_raise _ _)
  | fpow =>
    exact noData_ite (noData_ite (noData_writeResult _ _)
      (noData_ite (noData_writeResult _ _) (noData_writeResult _ _))) (noData_raise _ _)
  | _ => exact noData_complete _

/-- A word whose response carries data selects one of the ten reads. -/
theorem returnsData_of_data {cw : CommandWord} {s t : State} {rw : Response}
    (h : execWord cw s = .next t) (hrsp : t.rsp = some rw) (hdata : rw.data ≠ 0#64) :
    ∃ i, decode cw = .ok i ∧ returnsData i = true := by
  cases hdecode : decode cw with
  | error e =>
    rw [execWord_of_illegal hdecode] at h
    exact absurd (noData_raise .illegal s t h rw hrsp) hdata
  | ok i =>
    rw [execWord_of_decode hdecode] at h
    refine ⟨i, rfl, ?_⟩
    by_contra hreads
    exact hdata (exec_noData i s (by simpa using hreads) t h rw hrsp)

theorem err_zero_of_data {rw : Response} (h : rw.legal = true) (hdata : rw.data ≠ 0#64) :
    rw.err = 0#4 := by
  simp only [Response.legal, Bool.and_eq_true, Bool.or_eq_true, decide_eq_true_eq] at h
  exact h.2.resolve_right hdata

end Sys2Proof.Claims

open Sys2Proof.Machine Sys2Proof.Claims

/-- Settles O27. The layout is a concatenation; a response with data is legal, so its code is 0, and
only a read gives one. -/
theorem responseWordFields : Obligations.ResponseWordFields := by
  refine ⟨fun rw => ⟨BitVec.extractLsb'_append_eq_left, BitVec.extractLsb'_append_eq_right⟩,
    fun cw s t rw hnext hrsp hdata => ⟨?_, returnsData_of_data hnext hrsp hdata⟩⟩
  exact err_zero_of_data ((execWord_next_cases hnext).response_legal rw hrsp) hdata

end

section
/-! The ports (30_encoding.md R94, R95; 70_reset_and_hazards.md R301): what a cycle without reset does,
and that the cycles of any host amount to the run of R301 on the accepted words. -/

namespace Sys2Proof.Machine

section

variable {input : PortInput} {s : State}

theorem step_of_cons {rest : List PortInput} (hlegal : s.field.legal = true)
    (hinputs : s.inputs = input :: rest) : step s = cycle input (s.setInputs rest) := by
  simp [step, nextCycle, hlegal, hinputs]

/-- Acceptance (30_encoding.md R94). -/
theorem cycle_of_ready (hrst : input.rst = false) (hrsp : s.rsp = none)
    (hvalid : input.cmdValid = true) : cycle input s = execWord input.cmdWord s := by
  simp [cycle, cmdReady, hrst, hrsp, hvalid]

theorem cycle_of_idle (hrst : input.rst = false) (hrsp : s.rsp = none)
    (hvalid : input.cmdValid = false) : cycle input s = .next s := by
  simp [cycle, rspValid, hrst, hrsp, hvalid]

/-- A pending response closes the command port and waits for the host (30_encoding.md R95). -/
theorem cycle_of_pending {rw : Response} (hrst : input.rst = false) (hrsp : s.rsp = some rw) :
    cycle input s = .next (if input.rspReady then deliver s else s) := by
  cases hready : input.rspReady <;> simp [cycle, cmdReady, rspValid, hrst, hrsp, hready]

end

@[simp] theorem deliver_rsp (s : State) : (deliver s).rsp = none := rfl

/-- The unit as the run of 70_reset_and_hazards.md R301 sees it: no host, and the response of the
command in flight taken. -/
def settled (s : State) : State := (deliver s).setInputs []

theorem settled_deliver (s : State) : settled (deliver s) = settled s := by
  rw [settled, deliver_of_none (deliver_rsp s), settled]

theorem settled_of_idle {s : State} (h : s.rsp = none) : settled s = s.setInputs [] := by
  rw [settled, deliver_of_none h]

theorem runWords_cons {cw : CommandWord} {s t : State} (ws : List CommandWord)
    (h : execWord cw s = .next t) : runWords (cw :: ws) s = runWords ws (deliver t) := by
  simp [runWords, transact, h]

/-- One cycle without reset commutes with the run: the words that the command port accepts from this
cycle on, run from before it, are those it accepts after the cycle, run from behind it. -/
theorem cycle_refines {input : PortInput} (s : State) (hrst : input.rst = false) :
    ∃ t, cycle input s = .next t ∧ t.field = s.field ∧ t.inputs = s.inputs ∧
      ∀ rest, runWords (acceptedWords s.rsp.isSome (input :: rest)) (settled s) =
        runWords (acceptedWords t.rsp.isSome rest) (settled t) := by
  cases hrsp : s.rsp with
  | some rw =>
    refine ⟨_, cycle_of_pending hrst hrsp, ?_⟩
    cases hready : input.rspReady with
    | true =>
      refine ⟨rfl, rfl, fun rest => ?_⟩
      simp [acceptedWords, hready, settled_deliver]
    | false =>
      refine ⟨rfl, rfl, fun rest => ?_⟩
      simp [acceptedWords, hready, hrsp]
  | none =>
    cases hvalid : input.cmdValid with
    | true =>
      obtain ⟨t, hexec, hends⟩ := execWord_ends input.cmdWord s
      obtain ⟨hfield, hinputs, -⟩ := hends.frame
      obtain ⟨rw, ht⟩ := hends.response
      refine ⟨t, (cycle_of_ready hrst hrsp hvalid).trans hexec, hfield, hinputs, fun rest => ?_⟩
      calc runWords (acceptedWords false (input :: rest)) (settled s)
          = runWords (input.cmdWord :: acceptedWords true rest) (s.setInputs []) := by
            simp [acceptedWords, hvalid, settled_of_idle hrsp]
        _ = runWords (acceptedWords true rest) (settled t) :=
            runWords_cons _ (execWord_setInputs [] hexec)
        _ = runWords (acceptedWords t.rsp.isSome rest) (settled t) := by rw [ht]; rfl
    | false =>
      refine ⟨s, cycle_of_idle hrst hrsp hvalid, rfl, rfl, fun rest => ?_⟩
      simp [acceptedWords, hvalid, hrsp]

theorem run_succ {s t : State} (n : Nat) (h : step s = .next t) :
    Host.Core.run core (n + 1) s = Host.Core.run core n t := by
  simp [Host.Core.run, core, h]

/-- The cycles of a host that never resets refine the run of R301, from a unit that may be busy. -/
theorem run_refines (inputs : List PortInput) (s : State) (hlegal : s.field.legal = true)
    (hinputs : s.inputs = inputs) (hreset : noReset inputs = true) :
    ∃ t, Host.Core.run core inputs.length s = .next t ∧ t.inputs = [] ∧
      runWords (acceptedWords s.rsp.isSome inputs) (settled s) = .next (deliver t) := by
  induction inputs generalizing s with
  | nil =>
    refine ⟨s, rfl, hinputs, ?_⟩
    simp only [acceptedWords, runWords, settled]
    rw [← hinputs]
    rfl
  | cons input rest ih =>
    obtain ⟨hrst, hrest⟩ : input.rst = false ∧ noReset rest = true := by
      simpa [noReset] using hreset
    obtain ⟨u, hcycle, hfield, hinputs', hrun⟩ := cycle_refines (s.setInputs rest) hrst
    obtain ⟨t, htrun, htinputs, hwords⟩ := ih u (by simpa [hfield] using hlegal) hinputs' hrest
    refine ⟨t, ?_, htinputs, (hrun rest).trans hwords⟩
    rw [← htrun]
    exact run_succ rest.length ((step_of_cons hlegal hinputs).trans hcycle)

end Sys2Proof.Machine

open Sys2Proof.Machine Sys2Proof.Claims

/-- Settles O40. Each cycle commutes with the run, and an idle unit is settled. -/
theorem handshakeRefinesRun : Obligations.HandshakeRefinesRun := by
  intro s hlegal hrsp hreset
  obtain ⟨t, hrun, hinputs, hwords⟩ := run_refines s.inputs s hlegal rfl hreset
  rw [hrsp, settled_of_idle hrsp] at hwords
  exact ⟨t, hrun, hinputs, hwords⟩

/-- Settles O36. The step is the cycle of acceptance, and that is `execWord`. -/
theorem stepRunsDecodedCommand : Obligations.StepRunsDecodedCommand := by
  intro s input rest hlegal hinputs hrst hvalid hrsp
  have hstep : step s = execWord input.cmdWord (s.setInputs rest) :=
    (step_of_cons hlegal hinputs).trans (cycle_of_ready hrst hrsp hvalid)
  refine ⟨by simp [cmdReady, hrst, hrsp], fun i hdecode => ?_, fun e hdecode => ?_⟩
  · exact hstep.trans (execWord_of_decode hdecode _)
  · exact hstep.trans (execWord_of_illegal hdecode _)

/-- Settles O37. The step is the cycle of a pending response, which delivers it or does nothing. -/
theorem pendingResponseBlocksPort : Obligations.PendingResponseBlocksPort := by
  intro s input rest rw hlegal hinputs hrst hrsp
  have hstep := (step_of_cons hlegal hinputs).trans
    (cycle_of_pending (s := s.setInputs rest) hrst hrsp)
  refine ⟨by simp [cmdReady, hrsp], by simp [rspWord, rspValid, hrst, hrsp], hstep.trans ?_⟩
  rw [deliver_of_some (s := s.setInputs rest) hrsp]
  rfl

end

section
/-! The pseudo-commands (30_encoding.md R101) as runs of two commands, and the bounds that keep a
carry-less product in 128 bits and a remainder in 64 (41_polynomial.md R151, R153). -/

namespace Sys2Proof.Machine

theorem clmulTurns_lt {a m : Nat} (b : Nat) (ha : a < 2 ^ m) (k : Nat) :
    clmulTurns a b k < 2 ^ (m + k) := by
  induction k with
  | zero => exact Nat.two_pow_pos _
  | succ i ih =>
    have hturn : clmulTurns a b i < 2 ^ (m + (i + 1)) :=
      ih.trans (Nat.pow_lt_pow_right (by decide) (by omega))
    simp only [clmulTurns]
    split
    · have hshift : a <<< i < 2 ^ (m + (i + 1)) :=
        (Nat.shiftLeft_lt ha).trans (Nat.pow_lt_pow_right (by decide) (by omega))
      exact Nat.xor_lt_two_pow hturn hshift
    · exact hturn

/-- The product of two registers fits `PR` (41_polynomial.md R151). -/
theorem clmul_toNat_lt (a b : Word) : clmul a.toNat b.toNat < 2 ^ 128 := by
  have hturns : b.toNat.log2 + 1 ≤ 64 := by
    by_cases hb : b.toNat = 0
    · simp [hb]
    · exact (Nat.log2_lt hb).2 b.isLt
  exact (clmulTurns_lt b.toNat a.isLt _).trans_le (Nat.pow_le_pow_right (by decide) (by omega))

/-- Aligning the divisor under the remainder cancels the highest bit (41_polynomial.md R154). -/
theorem xor_aligned_lt {r d : Nat} (hr : r ≠ 0) (hd : d ≠ 0) (hle : d.log2 ≤ r.log2) :
    r ^^^ (d <<< (r.log2 - d.log2)) < 2 ^ r.log2 := by
  refine Nat.lt_pow_two_of_testBit _ fun i hi => ?_
  rw [Nat.testBit_xor, Nat.testBit_shiftLeft]
  obtain rfl | hlt := hi.eq_or_lt
  · have hindex : r.log2 - (r.log2 - d.log2) = d.log2 := by omega
    simp [hindex, Nat.testBit_log2, hr, hd]
  · have hr' : r.testBit i = false := Nat.testBit_eq_false_of_lt ((Nat.log2_lt hr).1 hlt)
    have hd' : d.testBit (i - (r.log2 - d.log2)) = false :=
      Nat.testBit_eq_false_of_lt ((Nat.log2_lt hd).1 (by omega))
    simp [hr', hd']

/-- With a turn for every bit of the remainder, the loop ends below the divisor's degree. -/
theorem pmodTurns_lt {d : Nat} (hd : d ≠ 0) (fuel r : Nat) (hr : r < 2 ^ fuel) :
    pmodTurns d fuel r < 2 ^ d.log2 := by
  induction fuel generalizing r with
  | zero =>
    obtain rfl : r = 0 := by omega
    exact Nat.two_pow_pos _
  | succ fuel ih =>
    simp only [pmodTurns]
    split
    next hturn =>
      obtain ⟨hr0, hle⟩ := hturn
      have hlog : r.log2 ≤ fuel := Nat.lt_succ_iff.1 ((Nat.log2_lt hr0).2 hr)
      exact ih _ ((xor_aligned_lt hr0 hd hle).trans_le (Nat.pow_le_pow_right (by decide) hlog))
    next hstop =>
      by_cases hr0 : r = 0
      · rw [hr0]
        exact Nat.two_pow_pos _
      · exact (Nat.log2_lt hr0).1 (by omega)

theorem pmod_lt {d : Nat} (n : Nat) (hd : d ≠ 0) : pmod n d < 2 ^ d.log2 :=
  pmodTurns_lt hd _ n Nat.lt_log2_self

/-- A remainder by a register fits a register (41_polynomial.md R153). -/
theorem pmod_toNat_lt (n : Nat) {m : Word} (hm : m ≠ 0#64) : pmod n m.toNat < 2 ^ 64 := by
  have hm0 : m.toNat ≠ 0 := by simpa [BitVec.toNat_eq] using hm
  exact (pmod_lt n hm0).trans_le ((Nat.log2_self_le hm0).trans m.isLt.le)

/-- A run of two commands. -/
theorem runWords_pair {i j : Instr} {s t u : State} (hi : i.wf = true) (hj : j.wf = true)
    (hfirst : exec i s = .next t) (hsecond : exec j (deliver t) = .next u) :
    runWords [encode i, encode j] s = .next (deliver u) :=
  (runWords_cons [encode j] ((execWord_of_decode (decode_encode hi) s).trans hfirst)).trans
    (runWords_cons [] ((execWord_of_decode (decode_encode hj) _).trans hsecond))

theorem runWords_ldpr (v : Product) {s : State} (hrsp : s.rsp = none) :
    runWords ((expandPseudo (.ldpr v)).map encode) s =
      .next { s with pr := v, delivered := s.delivered ++ [⟨0#4, 0#64⟩, ⟨0#4, 0#64⟩] } := by
  refine (runWords_pair rfl rfl rfl rfl).trans (congrArg _ ?_)
  apply State.eq_of_fields <;> simp [deliver, hrsp, okCode, prLow_prOfHalves]
  exact prOfHalves_prHigh_prLow v

theorem runWords_rdpr {s : State} (hrsp : s.rsp = none) :
    runWords ((expandPseudo .rdpr).map encode) s =
      .next { s with delivered := s.delivered ++ [⟨0#4, prLow s.pr⟩, ⟨0#4, prHigh s.pr⟩] } := by
  refine (runWords_pair rfl rfl rfl rfl).trans (congrArg _ ?_)
  apply State.eq_of_fields <;> simp [deliver, hrsp, okCode]

/-- The content of `PR` after PMUL. -/
def productOf (s : State) : Product := BitVec.ofNat 128 (clmul s.a.toNat s.b.toNat)

theorem productOf_toNat (s : State) : (productOf s).toNat = clmul s.a.toNat s.b.toNat :=
  (BitVec.toNat_ofNat _ _).trans (Nat.mod_eq_of_lt (clmul_toNat_lt s.a s.b))

theorem exec_pmul (s : State) : exec .pmul s = complete (s.setPr (productOf s)) := rfl

theorem exec_pred_of_zero {s : State} (h : s.m = 0#64) : exec .pred s = raise .zmod s :=
  if_pos h

theorem exec_pred_of_ne_zero {s : State} (h : s.m ≠ 0#64) :
    exec .pred s = writeResult (word (pmod s.pr.toNat s.m.toNat)) s :=
  if_neg h

theorem runWords_pmulmod {s : State} (hrsp : s.rsp = none) (hm : s.m ≠ 0#64) :
    runWords ((expandPseudo .pmulmod).map encode) s =
      .next { s with pr := productOf s, r := word (pmod (productOf s).toNat s.m.toNat),
                     delivered := s.delivered ++ [⟨0#4, 0#64⟩, ⟨0#4, 0#64⟩] } := by
  refine (runWords_pair rfl rfl (exec_pmul s) (exec_pred_of_ne_zero hm)).trans (congrArg _ ?_)
  apply State.eq_of_fields <;> simp [deliver, hrsp, okCode]

theorem runWords_pmulmod_zero {s : State} (hrsp : s.rsp = none) (hm : s.m = 0#64) :
    runWords ((expandPseudo .pmulmod).map encode) s =
      .next { s with pr := productOf s, ecode := latchError s.ecode .zmod,
                     delivered := s.delivered ++ [⟨0#4, 0#64⟩, ⟨2#4, 0#64⟩] } := by
  refine (runWords_pair rfl rfl (exec_pmul s) (exec_pred_of_zero hm)).trans (congrArg _ ?_)
  apply State.eq_of_fields <;> simp [deliver, hrsp, okCode, errorCode]

end Sys2Proof.Machine

open Sys2Proof.Machine Sys2Proof.Claims

/-- Settles O59. The expansions are the definition; each run is a run of two commands, and the product
and the remainder fit their registers. -/
theorem pseudoCommandEffects : Obligations.PseudoCommandEffects := by
  refine ⟨fun v => rfl, rfl, rfl, fun v s => runWords_ldpr v, fun s hrsp => ?_,
    fun s => runWords_rdpr⟩
  refine ⟨productOf s, productOf_toNat s, fun hm => ?_, runWords_pmulmod_zero hrsp⟩
  refine ⟨_, ?_, runWords_pmulmod hrsp hm⟩
  rw [productOf_toNat]
  exact (BitVec.toNat_ofNat _ _).trans (Nat.mod_eq_of_lt (pmod_toNat_lt _ hm))

end

section
/-! Decimal immediates in the assembler (30_encoding.md R100). -/

namespace Sys2Proof.Machine

section

variable {c : Char} (hc : c.isDigit = true)
include hc

theorem isDigit_bounds : '0' ≤ c ∧ c ≤ '9' := by
  simpa [Char.isDigit, Char.le_def] using hc

theorem digitValue_of_isDigit : digitValue c = some (c.toNat - '0'.toNat) :=
  if_pos (isDigit_bounds hc)

theorem digit_lt_ten : c.toNat - '0'.toNat < 10 := by
  have hle : c.toNat ≤ '9'.toNat := (isDigit_bounds hc).2
  have hnine : '9'.toNat = '0'.toNat + 9 := rfl
  omega

theorem ne_of_isDigit {d : Char} (hd : d.isDigit = false) : c ≠ d := by
  rintro rfl
  simp [hc] at hd

/-- One turn of the reader on a decimal digit. -/
theorem readDigits_digit (cs : List Char) (afterDigit : Bool) (acc : Nat) :
    readDigits 10 (c :: cs) afterDigit acc =
      readDigits 10 cs true (10 * acc + (c.toNat - '0'.toNat)) := by
  have hseparator : c ≠ '_' := ne_of_isDigit hc rfl
  simp only [readDigits, if_neg hseparator, digitValue_of_isDigit hc, if_pos (digit_lt_ten hc),
    Nat.mul_comm acc]

end

theorem readDigits_decimal {cs : List Char} (hcs : ∀ c ∈ cs, c.isDigit = true) (acc : Nat) :
    readDigits 10 cs true acc = some (Nat.ofDigitChars 10 cs acc) := by
  induction cs generalizing acc with
  | nil => rfl
  | cons c cs ih =>
    obtain ⟨hc, hrest⟩ := List.forall_mem_cons.1 hcs
    rw [readDigits_digit hc, ih hrest, Nat.ofDigitChars_cons]

/-- Digits alone are not of the hexadecimal or the binary form. -/
theorem readLiteral_of_digits {cs : List Char} (hcs : ∀ c ∈ cs, c.isDigit = true) :
    readLiteral cs = readDigits 10 cs false 0 := by
  unfold readLiteral
  split
  · simp at hcs
  · simp at hcs
  · rfl

theorem isDigit_of_mem_decimal {v : Nat} : ∀ c ∈ Nat.toDigits 10 v, c.isDigit = true :=
  fun _ => Nat.isDigit_of_mem_toDigits (by decide) (by decide)

/-- The assembler reads back the decimal text of a number. -/
theorem readLiteral_decimal (v : Nat) : readLiteral (Nat.toDigits 10 v) = some v := by
  have hdigits := isDigit_of_mem_decimal (v := v)
  rw [readLiteral_of_digits hdigits]
  obtain ⟨c, cs, hcs⟩ := List.exists_cons_of_ne_nil (Nat.toDigits_ne_nil (n := v) (b := 10))
  rw [hcs] at hdigits
  obtain ⟨hc, hrest⟩ := List.forall_mem_cons.1 hdigits
  calc readDigits 10 (Nat.toDigits 10 v) false 0
      = some (Nat.ofDigitChars 10 (Nat.toDigits 10 v) 0) := by
        rw [hcs, readDigits_digit hc, readDigits_decimal hrest, Nat.ofDigitChars_cons]
    _ = some v := by rw [Nat.ofDigitChars_ten_toDigits]

/-- A line without a comment that does not end in a blank is its own body. -/
theorem lineBody_of_getLast {line : List Char} (hcomment : ';' ∉ line) (hne : line ≠ [])
    (hlast : line.getLast hne ≠ ' ') : lineBody line = line := by
  have htake : line.takeWhile (· ≠ ';') = line := by
    rw [List.takeWhile_eq_self_iff]
    intro c hc
    simpa using ne_of_mem_of_not_mem hc hcomment
  rw [lineBody, htake]
  obtain ⟨front, c, rfl⟩ := List.eq_nil_or_concat' line |>.resolve_left hne
  have hc : c ≠ ' ' := by simpa using hlast
  simp [hc]

section

variable {name literal : List Char} (hname : ∀ c ∈ name, c ≠ ' ')
include hname

theorem takeWhile_mnemonic :
    (name ++ ' ' :: literal).takeWhile (· ≠ ' ') = name := by
  rw [List.takeWhile_append_of_pos (by simpa using hname)]
  simp

theorem dropWhile_mnemonic :
    (name ++ ' ' :: literal).dropWhile (· ≠ ' ') = ' ' :: literal := by
  rw [List.dropWhile_append_of_pos (by simpa using hname)]
  simp

end

/-- A line of a mnemonic and a decimal immediate. -/
def decimalLine (name : List Char) (v : Nat) : List Char := name ++ ' ' :: Nat.toDigits 10 v

/-- The characters of a mnemonic: none is a blank or the mark of a comment. -/
def isMnemonicText (name : List Char) : Bool := name.all fun c => c != ' ' && c != ';'

theorem lineBody_decimalLine {name : List Char} (hcomment : ';' ∉ name) (v : Nat) :
    lineBody (decimalLine name v) = decimalLine name v := by
  have hdigits : Nat.toDigits 10 v ≠ [] := Nat.toDigits_ne_nil
  refine lineBody_of_getLast (fun hmem => ?_) (by simp [decimalLine]) ?_
  · obtain hmem | hmem : ';' ∈ name ∨ ';' ∈ Nat.toDigits 10 v := by simpa [decimalLine] using hmem
    · exact hcomment hmem
    · exact ne_of_isDigit (isDigit_of_mem_decimal _ hmem) (d := ';') rfl rfl
  · simp only [decimalLine, List.getLast_append_of_ne_nil, List.getLast_cons hdigits, ne_eq,
      reduceCtorEq, not_false_eq_true]
    exact ne_of_isDigit (isDigit_of_mem_decimal _ (List.getLast_mem hdigits)) rfl

theorem parseLine_decimalLine {name : List Char} {bound : Nat} {commands : Nat → List Instr}
    (hshape : mnemonicShape name = some (.withImmediate bound commands))
    (htext : isMnemonicText name = true) (v : Nat) :
    parseLine (decimalLine name v) =
      if v < bound then .ok (commands v) else .error .literalTooLarge := by
  obtain ⟨hblank, hcomment⟩ : (∀ c ∈ name, c ≠ ' ') ∧ ';' ∉ name := by
    simp only [isMnemonicText, List.all_eq_true, Bool.and_eq_true, bne_iff_ne] at htext
    exact ⟨fun c hc => (htext c hc).1, fun hmem => (htext _ hmem).2 rfl⟩
  have hne : decimalLine name v ≠ [] := by simp [decimalLine]
  simp only [parseLine, lineBody_decimalLine hcomment, if_neg hne]
  simp only [decimalLine, takeWhile_mnemonic hblank, dropWhile_mnemonic hblank, hshape,
    readLiteral_decimal]

/-- A format `D` command with a decimal immediate (30_encoding.md R100). -/
theorem assembleLine_decimalLine {name : List Char} {command : Word → Instr}
    (hshape : mnemonicShape name =
      some (.withImmediate (2 ^ 64) fun v => [command (BitVec.ofNat 64 v)]))
    (htext : isMnemonicText name = true) (v : Nat) :
    assembleLine (decimalLine name v) =
      if v < 2 ^ 64 then .ok [encode (command (BitVec.ofNat 64 v))]
      else .error .literalTooLarge := by
  rw [assembleLine, parseLine_decimalLine hshape htext]
  split <;> rfl

end Sys2Proof.Machine

open Sys2Proof.Machine

/-- Settles O60. The mnemonic ends at the blank, the digits behind it read back as the number, and the
word of a format `D` command is its opcode and its immediate. -/
theorem decimalImmediatesAssemble : Obligations.DecimalImmediatesAssemble := by
  intro mnemonic op hmem v
  simp only [List.mem_cons, Prod.mk.injEq, List.not_mem_nil, or_false] at hmem
  obtain ⟨rfl, rfl⟩ | ⟨rfl, rfl⟩ | ⟨rfl, rfl⟩ | ⟨rfl, rfl⟩ | ⟨rfl, rfl⟩ := hmem
  · exact assembleLine_decimalLine (name := "LDA".toList) (command := .lda) rfl rfl v
  · exact assembleLine_decimalLine (name := "LDB".toList) (command := .ldb) rfl rfl v
  · exact assembleLine_decimalLine (name := "LDM".toList) (command := .ldm) rfl rfl v
  · exact assembleLine_decimalLine (name := "LDPL".toList) (command := .ldpl) rfl rfl v
  · exact assembleLine_decimalLine (name := "LDPH".toList) (command := .ldph) rfl rfl v

end

section
/-! The encoding of the commands of 40_transfer.md (30_encoding.md R81, R82), and their two ends in the
words of the statements (R84). -/

namespace Sys2Proof.Claims

open Sys2Proof.Machine

/-- A format `N` row of the opcode map gives the whole of `NWord`. -/
theorem nWord_of_shape {op : Opcode} {i : Instr} (h : opcodeMap op = some (.n i)) : NWord op i := by
  have hdecode : decode (op ++ 0#64) = .ok i := (decode_of_shape_n h 0#64).trans (if_pos rfl)
  refine ⟨hdecode, execWord_of_decode hdecode, fun imm s himm => ?_⟩
  exact execWord_of_illegal_failed ((decode_of_shape_n h imm).trans (if_neg himm)) s

/-- A format `D` row of the opcode map gives the whole of `DWord`. -/
theorem dWord_of_shape {op : Opcode} {command : Word → Instr}
    (h : opcodeMap op = some (.d command)) : DWord op command := fun imm =>
  ⟨decode_of_shape_d h imm, execWord_of_decode (decode_of_shape_d h imm)⟩

theorem complete_eq_ended (s : State) : complete s = .next (ended s) := rfl

theorem answer_eq_ended (v : Word) (s : State) : answer v s = .next (ended s v) := rfl

/-- Zero extension is a concatenation with zeros (40_transfer.md R121). -/
theorem zext_result (r : Word) : r.setWidth 128 = (0#64 ++ r : Product) :=
  BitVec.setWidth_eq_append (by decide)

/-- Zero extension of `ECODE` (40_transfer.md R128). -/
theorem zext_ecode (e : ErrorCode) : e.setWidth 64 = (0#60 ++ e : Word) :=
  BitVec.setWidth_eq_append (by decide)

end Sys2Proof.Claims

open Sys2Proof Sys2Proof.Machine Sys2Proof.Claims

/-- Settles O5. Two format `N` commands that complete, CLRE after clearing `ECODE`. -/
theorem nopAndClreResults : Obligations.NopAndClreResults :=
  ⟨⟨nWord_of_shape rfl, complete_eq_ended⟩,
    ⟨nWord_of_shape rfl, fun s => complete_eq_ended (s.setEcode 0#4)⟩⟩

/-- Settles O6. Three format `D` commands that complete after one register write. -/
theorem loadsWriteOperandRegisters : Obligations.LoadsWriteOperandRegisters :=
  ⟨⟨dWord_of_shape rfl, fun imm s => complete_eq_ended (s.setA imm)⟩,
    ⟨dWord_of_shape rfl, fun imm s => complete_eq_ended (s.setB imm)⟩,
    ⟨dWord_of_shape rfl, fun imm s => complete_eq_ended (s.setM imm)⟩⟩

/-- Settles O7. Each load joins the immediate with the old other half, and `PR` gives back the halves
it was joined from. -/
theorem loadsWriteHalvesOfProduct : Obligations.LoadsWriteHalvesOfProduct := by
  refine ⟨dWord_of_shape rfl, dWord_of_shape rfl, fun imm s => ⟨?_, ?_⟩⟩
  · exact ⟨prOfHalves (prHigh s.pr) imm, complete_eq_ended (s.setPr _),
      prLow_prOfHalves _ _, prHigh_prOfHalves _ _⟩
  · exact ⟨prOfHalves imm (prLow s.pr), complete_eq_ended (s.setPr _),
      prHigh_prOfHalves _ _, prLow_prOfHalves _ _⟩

/-- Settles O8. Four format `N` commands that complete after one register write. -/
theorem movesCopyResult : Obligations.MovesCopyResult := by
  refine ⟨⟨nWord_of_shape rfl, fun s => complete_eq_ended (s.setA s.r)⟩,
    ⟨nWord_of_shape rfl, fun s => complete_eq_ended (s.setB s.r)⟩,
    ⟨nWord_of_shape rfl, fun s => complete_eq_ended (s.setM s.r)⟩,
    ⟨nWord_of_shape rfl, fun s => ?_⟩⟩
  simp only [← zext_result]
  exact complete_eq_ended (s.setPr (s.r.setWidth 128))

/-- Settles O9. Seven format `N` commands that answer with a register. -/
theorem readsReturnRegisters : Obligations.ReadsReturnRegisters := by
  refine ⟨⟨nWord_of_shape rfl, fun s => answer_eq_ended s.r s⟩,
    ⟨nWord_of_shape rfl, fun s => answer_eq_ended s.a s⟩,
    ⟨nWord_of_shape rfl, fun s => answer_eq_ended s.b s⟩,
    ⟨nWord_of_shape rfl, fun s => answer_eq_ended s.m s⟩,
    ⟨nWord_of_shape rfl, fun s => answer_eq_ended (prLow s.pr) s⟩,
    ⟨nWord_of_shape rfl, fun s => answer_eq_ended (prHigh s.pr) s⟩,
    ⟨nWord_of_shape rfl, fun s => ?_⟩⟩
  simp only [← zext_ecode]
  exact answer_eq_ended (s.ecode.setWidth 64) s

end

section
/-! The constants of a legal instance (40_transfer.md R129 to R131): the degree of the modulus, and the
range of the generator (43_field_build.md R201, R204). -/

namespace Sys2Proof.Machine

open Sys2Proof.Claims

theorem isTopBit_of_deg {f p : Nat} (h : deg f = some p) : IsTopBit f p := by
  unfold deg at h
  split at h
  next => cases h
  next hf =>
    cases h
    refine ⟨Nat.testBit_log2 hf, fun j hj => ?_⟩
    exact Nat.testBit_eq_false_of_lt ((Nat.log2_lt hf).1 hj)

/-- Rabin's test accepts a polynomial of the degree asked for only (42_irreducibility.md R184). -/
theorem deg_of_isIrreducible {f p : Nat} (h : isIrreducible f p = true) : deg f = some p := by
  by_contra hdeg
  simp [isIrreducible, hdeg] at h

/-- A number below `2^64` is the content of its register. -/
theorem word_toNat {v : Nat} (h : v < 2 ^ 64) : (word v).toNat = v :=
  (BitVec.toNat_ofNat v 64).trans (Nat.mod_eq_of_lt h)

end Sys2Proof.Machine

namespace Sys2Proof.FieldConfig

/-- What the check of an instance says (43_field_build.md R201). -/
theorem legal_iff {c : FieldConfig} :
    c.legal = true ↔
      1 ≤ c.degree ∧ c.degree ≤ 63 ∧ Machine.isIrreducible c.modulus.toNat c.degree = true := by
  simp [legal, and_assoc]

/-- `N` of a legal degree fits a register (00_scope.md R8, R10). -/
theorem n_lt {c : FieldConfig} (h : c.degree ≤ 63) : c.n < 2 ^ 64 := by
  have hpow : 2 ^ c.degree ≤ 2 ^ 63 := Nat.pow_le_pow_right (by decide) h
  unfold n
  omega

theorem n_pos {c : FieldConfig} (h : 1 ≤ c.degree) : 0 < c.n :=
  Nat.sub_pos_of_lt (Nat.one_lt_two_pow (by omega))

theorem n_eq_one_iff (c : FieldConfig) : c.n = 1 ↔ c.degree = 1 := by
  have hpow : 2 ^ c.degree = 2 ^ 1 ↔ c.degree = 1 := Nat.pow_right_inj (by decide)
  unfold n
  omega

/-- The first power of 1 is 1 already. -/
theorem order_one {c : FieldConfig} (h : 0 < c.n) : c.order 1 = some 1 := by
  obtain ⟨m, hm⟩ := Nat.exists_eq_succ_of_ne_zero h.ne'
  simp [order, hm, orderFrom]

/-- What the search for a generator finds: a residue of its range, of full order. -/
theorem generatorFrom_eq_some {c : FieldConfig} {fuel x g : Nat}
    (h : c.generatorFrom fuel x = some g) : g < x + fuel ∧ c.order g = some c.n := by
  induction fuel generalizing x with
  | zero => cases h
  | succ fuel ih =>
    unfold generatorFrom at h
    split at h
    next horder =>
      cases h
      exact ⟨by omega, horder⟩
    next =>
      obtain ⟨hlt, horder⟩ := ih h
      exact ⟨by omega, horder⟩

theorem generator_le_n (c : FieldConfig) : c.generator ≤ c.n := by
  cases h : c.generatorFrom c.n 1 with
  | none => simp [generator, h]
  | some g =>
    obtain ⟨hlt, -⟩ := generatorFrom_eq_some h
    simp only [generator, h, Option.getD_some]
    omega

/-- A residue of order 1 generates the group of one element and no other (40_transfer.md R131). -/
theorem generator_eq_one_iff {c : FieldConfig} (h : 1 ≤ c.degree) :
    c.generator = 1 ↔ c.degree = 1 := by
  rw [← n_eq_one_iff]
  have hone := order_one (n_pos h)
  constructor
  · intro hg
    cases hfrom : c.generatorFrom c.n 1 with
    | none => simp [generator, hfrom] at hg
    | some g =>
      obtain rfl : g = 1 := by simpa [generator, hfrom] using hg
      obtain ⟨-, hfull⟩ := generatorFrom_eq_some hfrom
      exact Option.some.inj (hfull.symm.trans hone)
  · intro hn
    simp [generator, generatorFrom, hn, hone]

end Sys2Proof.FieldConfig

open Sys2Proof Sys2Proof.Machine Sys2Proof.Claims

/-- Settles O10. The three reads answer with the constant, and the degree and the generator of a legal
pair fit a register; the check fixes the degree of the modulus, and only the group of one element is
generated by 1. -/
theorem readsReturnInstanceConstants : Obligations.ReadsReturnInstanceConstants := by
  refine ⟨nWord_of_shape rfl, nWord_of_shape rfl, nWord_of_shape rfl,
    fun s => answer_eq_ended s.field.modulus s, fun s hlegal => ?_, by decide +kernel,
    by decide +kernel⟩
  obtain ⟨hpos, hle, hirreducible⟩ := FieldConfig.legal_iff.1 hlegal
  have hdegree : s.field.degree < 2 ^ 64 := hle.trans_lt (by decide)
  have hgenerator : s.field.generator < 2 ^ 64 :=
    (FieldConfig.generator_le_n s.field).trans_lt (FieldConfig.n_lt hle)
  exact ⟨⟨_, word_toNat hdegree, answer_eq_ended _ s⟩, ⟨_, word_toNat hgenerator, answer_eq_ended _ s⟩,
    isTopBit_of_deg (deg_of_isIrreducible hirreducible), hpos, hle,
    FieldConfig.generator_eq_one_iff hpos⟩

end

section
/-! The highest set bit (41_polynomial.md R155): how `IsTopBit`, the binary logarithm and the powers of
two say the same. -/

namespace Sys2Proof.Claims

open Sys2Proof.Machine

theorem IsTopBit.ne_zero {n k : Nat} (h : IsTopBit n k) : n ≠ 0 := by
  rintro rfl
  simp [IsTopBit] at h

theorem IsTopBit.two_pow_le {n k : Nat} (h : IsTopBit n k) : 2 ^ k ≤ n :=
  Nat.ge_two_pow_of_testBit h.1

theorem IsTopBit.lt_two_pow {n k : Nat} (h : IsTopBit n k) : n < 2 ^ (k + 1) :=
  Nat.lt_pow_two_of_testBit n h.2

theorem IsTopBit.log2_eq {n k : Nat} (h : IsTopBit n k) : n.log2 = k :=
  (Nat.log2_eq_iff h.ne_zero).2 ⟨h.two_pow_le, h.lt_two_pow⟩

theorem isTopBit_log2 {n : Nat} (h : n ≠ 0) : IsTopBit n n.log2 :=
  isTopBit_of_deg (if_neg h)

theorem IsTopBit.lt_iff {n k w : Nat} (h : IsTopBit n k) : n < 2 ^ w ↔ k < w := by
  rw [← Nat.log2_lt h.ne_zero, h.log2_eq]

end Sys2Proof.Claims

namespace Sys2Proof.Machine

open Sys2Proof.Claims

/-- What fits `k` bits fits more bits. -/
theorem lt_two_pow_of_le {n k l : Nat} (hn : n < 2 ^ k) (hkl : k ≤ l) : n < 2 ^ l :=
  hn.trans_le (Nat.pow_le_pow_right two_pos hkl)

/-- A degree is a highest set bit, and a highest set bit the degree. -/
theorem deg_eq_some_iff {v k : Nat} : deg v = some k ↔ IsTopBit v k :=
  ⟨isTopBit_of_deg, fun h => by rw [deg, if_neg h.ne_zero, h.log2_eq]⟩

end Sys2Proof.Machine

open Sys2Proof.Machine Sys2Proof.Claims

/-- Settles O45. The binary logarithm is the index of the highest set bit, and `n < 2^w` bounds it. -/
theorem degIsHighestSetBit : Obligations.DegIsHighestSetBit := by
  refine ⟨rfl, fun v k => deg_eq_some_iff, fun v k hv hk => ?_, rfl⟩
  have hlt : k < 128 := (deg_eq_some_iff.1 hk).lt_iff.1 hv
  omega

end

section
/-! The loop of the carry-less product, bit by bit (41_polynomial.md R151). -/

namespace Sys2Proof.Machine

theorem testBit_clmulTurns_succ (a b n k : Nat) :
    (clmulTurns a b (n + 1)).testBit k =
      xor ((clmulTurns a b n).testBit k) ((decide (n ≤ k) && a.testBit (k - n)) && b.testBit n) := by
  cases hb : b.testBit n <;> simp [clmulTurns, hb, Nat.testBit_shiftLeft]

/-- The turns above the highest bit of the second operand change nothing. -/
theorem clmulTurns_add {a b n : Nat} (hb : b < 2 ^ n) (m : Nat) :
    clmulTurns a b (n + m) = clmulTurns a b n := by
  induction m with
  | zero => rfl
  | succ m ih =>
    have hbit : b.testBit (n + m) = false :=
      Nat.testBit_eq_false_of_lt (lt_two_pow_of_le hb (Nat.le_add_right n m))
    simpa [← Nat.add_assoc, clmulTurns, hbit] using ih

/-- Any number of turns that covers the bits of the second operand gives the product. -/
theorem clmulTurns_eq_clmul {a b n : Nat} (hb : b < 2 ^ n) : clmulTurns a b n = clmul a b := by
  rw [clmul, ← clmulTurns_add hb (b.log2 + 1), Nat.add_comm, clmulTurns_add Nat.lt_log2_self]

/-- The turns above `k` do not reach bit `k`. -/
theorem testBit_clmulTurns_add (a b k m : Nat) :
    (clmulTurns a b (k + 1 + m)).testBit k = (clmulTurns a b (k + 1)).testBit k := by
  induction m with
  | zero => rfl
  | succ m ih =>
    have habove : ¬ k + 1 + m ≤ k := by omega
    rw [← Nat.add_assoc, testBit_clmulTurns_succ, ih]
    simp [habove]

theorem testBit_clmul (a b k : Nat) :
    (clmul a b).testBit k = (clmulTurns a b (k + 1)).testBit k := by
  have hb : b < 2 ^ (k + 1 + (b.log2 + 1)) :=
    lt_two_pow_of_le Nat.lt_log2_self (Nat.le_add_left _ _)
  rw [← clmulTurns_eq_clmul hb, testBit_clmulTurns_add]

/-- Bit `k` after the turns `0` to `n - 1`, none of them above `k`. -/
theorem testBit_clmulTurns_eq_foldl (a b : Nat) {n k : Nat} (h : n ≤ k + 1) :
    (clmulTurns a b n).testBit k =
      (List.range n).foldl (fun acc i => xor acc (a.testBit (k - i) && b.testBit i)) false := by
  induction n with
  | zero => simp [clmulTurns]
  | succ n ih =>
    have hn : n ≤ k := by omega
    rw [testBit_clmulTurns_succ, ih (by omega), List.range_succ, List.foldl_append]
    simp [hn]

theorem clmulTurns_eq_foldl (a b n : Nat) :
    clmulTurns a b n =
      (List.range n).foldl (fun r i => if b.testBit i then r ^^^ (a <<< i) else r) 0 := by
  induction n with
  | zero => rfl
  | succ n ih => rw [clmulTurns, ih, List.range_succ, List.foldl_append]; rfl

end Sys2Proof.Machine

open Sys2Proof.Machine

/-- Settles O41. Bit `k` is decided by the turns `0` to `k`, and 64 turns cover a 64-bit operand. -/
theorem clmulClosedForm : Obligations.ClmulClosedForm := by
  refine ⟨fun a b k => ?_, fun a b hb => ?_⟩
  · rw [testBit_clmul, testBit_clmulTurns_eq_foldl a b le_rfl]
  · rw [← clmulTurns_eq_clmul hb, clmulTurns_eq_foldl]

end

section
/-! The polynomial over GF(2) that a number stands for (00_scope.md R14): bit `i` is the coefficient of
`x^i`. The exclusive OR is its addition, `clmul` its multiplication, and `pmod` its remainder. -/

namespace Sys2Proof.Machine

open Polynomial Sys2Proof.Claims

/-- The polynomial over GF(2) whose coefficients are the bits of `n` (00_scope.md R14). -/
noncomputable def toPoly (n : Nat) : (ZMod 2)[X] :=
  ∑ i ∈ Finset.range (n.log2 + 1), if n.testBit i then X ^ i else 0

theorem coeff_toPoly (n k : Nat) : (toPoly n).coeff k = if n.testBit k then 1 else 0 := by
  have hterm (i : Nat) : (if n.testBit i then (X : (ZMod 2)[X]) ^ i else 0).coeff k =
      if k = i then (if n.testBit k then 1 else 0) else 0 := by
    obtain rfl | hne := eq_or_ne k i
    · cases n.testBit k <;> simp
    · cases n.testBit i <;> simp [coeff_X_pow, hne]
  rw [toPoly, finsetSum_coeff, Finset.sum_congr rfl fun i _ => hterm i, Finset.sum_ite_eq]
  split
  next => rfl
  next hk =>
    have hlow : n < 2 ^ k := lt_two_pow_of_le Nat.lt_log2_self (by simpa using hk)
    simp [Nat.testBit_eq_false_of_lt hlow]

theorem coeff_toPoly_eq_zero_iff {n k : Nat} : (toPoly n).coeff k = 0 ↔ n.testBit k = false := by
  rw [coeff_toPoly]
  cases n.testBit k <;> simp

theorem toPoly_injective : Function.Injective toPoly := by
  intro m n h
  refine Nat.eq_of_testBit_eq fun k => Bool.eq_iff_iff.2 ?_
  have hiff : m.testBit k = false ↔ n.testBit k = false := by
    rw [← coeff_toPoly_eq_zero_iff, ← coeff_toPoly_eq_zero_iff, h]
  simpa using not_congr hiff

theorem toPoly_inj {m n : Nat} : toPoly m = toPoly n ↔ m = n := toPoly_injective.eq_iff

@[simp] theorem toPoly_zero : toPoly 0 = 0 := by
  ext k
  simp [coeff_toPoly]

@[simp] theorem toPoly_two_pow (k : Nat) : toPoly (2 ^ k) = X ^ k := by
  ext i
  simp [coeff_toPoly, coeff_X_pow, Nat.testBit_two_pow, eq_comm]

@[simp] theorem toPoly_one : toPoly 1 = 1 := toPoly_two_pow 0

@[simp] theorem toPoly_two : toPoly 2 = X := (toPoly_two_pow 1).trans (pow_one X)

@[simp] theorem toPoly_eq_zero_iff {n : Nat} : toPoly n = 0 ↔ n = 0 := by
  rw [← toPoly_zero, toPoly_inj]

/-- The exclusive OR adds coefficients without carry (41_polynomial.md R150). -/
@[simp] theorem toPoly_xor (m n : Nat) : toPoly (m ^^^ n) = toPoly m + toPoly n := by
  ext k
  rw [coeff_add, coeff_toPoly, coeff_toPoly, coeff_toPoly, Nat.testBit_xor]
  cases m.testBit k <;> cases n.testBit k <;> simp [CharTwo.add_self_eq_zero]

@[simp] theorem toPoly_shiftLeft (n i : Nat) : toPoly (n <<< i) = toPoly n * X ^ i := by
  ext k
  rw [coeff_mul_X_pow', coeff_toPoly, coeff_toPoly, Nat.testBit_shiftLeft]
  by_cases hik : i ≤ k <;> simp [hik]

theorem toPoly_clmulTurns (a b n : Nat) :
    toPoly (clmulTurns a b n) =
      toPoly a * ∑ i ∈ Finset.range n, if b.testBit i then X ^ i else 0 := by
  induction n with
  | zero => simp [clmulTurns]
  | succ n ih => cases hb : b.testBit n <;> simp [clmulTurns, hb, ih, Finset.sum_range_succ, mul_add]

@[simp] theorem toPoly_clmul (a b : Nat) : toPoly (clmul a b) = toPoly a * toPoly b :=
  toPoly_clmulTurns a b (b.log2 + 1)

/-- Every polynomial over GF(2) is written as a number. -/
theorem toPoly_surjective : Function.Surjective toPoly := by
  intro p
  induction p using Polynomial.induction_on' with
  | add p q hp hq =>
    obtain ⟨m, rfl⟩ := hp
    obtain ⟨n, rfl⟩ := hq
    exact ⟨m ^^^ n, toPoly_xor m n⟩
  | monomial n a =>
    obtain rfl | rfl : a = 0 ∨ a = 1 := by revert a; decide
    · exact ⟨0, by simp⟩
    · exact ⟨2 ^ n, by rw [toPoly_two_pow, X_pow_eq_monomial]⟩

theorem degree_toPoly_lt_iff {n k : Nat} : (toPoly n).degree < (k : WithBot ℕ) ↔ n < 2 ^ k := by
  simp only [degree_lt_iff_coeff_zero, coeff_toPoly_eq_zero_iff]
  exact ⟨Nat.lt_pow_two_of_testBit n, fun h i hi =>
    Nat.testBit_eq_false_of_lt (lt_two_pow_of_le h hi)⟩

theorem degree_toPoly_of_isTopBit {n k : Nat} (h : IsTopBit n k) : (toPoly n).degree = k := by
  obtain ⟨hset, habove⟩ := h
  refine degree_eq_of_le_of_coeff_ne_zero ?_ (by simp [coeff_toPoly, hset])
  refine (degree_le_iff_coeff_zero _ _).2 fun i hi => coeff_toPoly_eq_zero_iff.2 (habove i ?_)
  exact_mod_cast hi

theorem isTopBit_iff_degree_toPoly {n k : Nat} : IsTopBit n k ↔ (toPoly n).degree = k := by
  refine ⟨degree_toPoly_of_isTopBit, fun h => ?_⟩
  have hn : n ≠ 0 := by
    rintro rfl
    simp at h
  have hlog : n.log2 = k := by
    exact_mod_cast (degree_toPoly_of_isTopBit (isTopBit_log2 hn)).symm.trans h
  exact hlog ▸ isTopBit_log2 hn

/-- A number has a lower degree than `d` exactly where it fits the bits below that of `d`. -/
theorem degree_toPoly_lt_degree_iff {n d j : Nat} (hd : IsTopBit d j) :
    (toPoly n).degree < (toPoly d).degree ↔ n < 2 ^ j := by
  rw [degree_toPoly_of_isTopBit hd, degree_toPoly_lt_iff]

end Sys2Proof.Machine
end

section
/-! The laws of the product (41_polynomial.md R151, R152, R160), read off the polynomial ring. -/

namespace Sys2Proof.Machine

open Sys2Proof.Claims

theorem clmul_comm (a b : Nat) : clmul a b = clmul b a :=
  toPoly_injective (by simp [mul_comm])

theorem clmul_assoc (a b c : Nat) : clmul (clmul a b) c = clmul a (clmul b c) :=
  toPoly_injective (by simp [mul_assoc])

theorem clmul_xor (a b c : Nat) : clmul a (b ^^^ c) = clmul a b ^^^ clmul a c :=
  toPoly_injective (by simp [mul_add])

@[simp] theorem clmul_zero (a : Nat) : clmul a 0 = 0 := toPoly_injective (by simp)

@[simp] theorem zero_clmul (a : Nat) : clmul 0 a = 0 := toPoly_injective (by simp)

@[simp] theorem clmul_one (a : Nat) : clmul a 1 = a := toPoly_injective (by simp)

theorem clmul_two (a : Nat) : clmul a 2 = a <<< 1 := toPoly_injective (by simp)

theorem isTopBit_clmul {a b j k : Nat} (ha : IsTopBit a j) (hb : IsTopBit b k) :
    IsTopBit (clmul a b) (j + k) := by
  rw [isTopBit_iff_degree_toPoly] at ha hb ⊢
  rw [toPoly_clmul, Polynomial.degree_mul, ha, hb]
  rfl

/-- A zero operand gives 0, and otherwise the degrees are at most 63 each. -/
theorem clmul_lt_two_pow {a b : Nat} (ha : a < 2 ^ 64) (hb : b < 2 ^ 64) : clmul a b < 2 ^ 127 := by
  obtain rfl | ha0 := eq_or_ne a 0
  · simp
  obtain rfl | hb0 := eq_or_ne b 0
  · simp
  have hj : a.log2 < 64 := (Nat.log2_lt ha0).2 ha
  have hk : b.log2 < 64 := (Nat.log2_lt hb0).2 hb
  exact (isTopBit_clmul (isTopBit_log2 ha0) (isTopBit_log2 hb0)).lt_iff.2 (by omega)

end Sys2Proof.Machine

open Sys2Proof.Machine Sys2Proof.Claims

/-- Settles O42. The degree of a product of polynomials over a field is the sum of the degrees. -/
theorem clmulDegreeLaw : Obligations.ClmulDegreeLaw :=
  ⟨fun _ _ _ _ => isTopBit_clmul,
    fun a => ⟨clmul_zero a, zero_clmul a, clmul_one a, clmul_two a⟩,
    fun _ _ => clmul_lt_two_pow⟩

end

section
/-! The loop of long division (41_polynomial.md R153) and the laws of the remainder (R154). -/

namespace Sys2Proof.Machine

open Polynomial Sys2Proof.Claims

/-- Adding a multiple of the divisor does not change the remainder. -/
theorem toPoly_xor_shiftLeft_mod (r d i : Nat) :
    toPoly (r ^^^ (d <<< i)) % toPoly d = toPoly r % toPoly d := by
  refine mod_eq_of_dvd_sub ⟨X ^ i, ?_⟩
  simp

theorem toPoly_mod_of_lt {n d j : Nat} (hd : IsTopBit d j) (hn : n < 2 ^ j) :
    toPoly n % toPoly d = toPoly n :=
  (mod_eq_self_iff (by simpa using hd.ne_zero)).2 ((degree_toPoly_lt_degree_iff hd).2 hn)

/-- The loop ends in the remainder when it has a turn for each bit from that of the divisor on. -/
theorem toPoly_pmodTurns {d j fuel n : Nat} (hd : IsTopBit d j) (hn : n < 2 ^ (j + fuel)) :
    toPoly (pmodTurns d fuel n) = toPoly n % toPoly d := by
  obtain rfl := hd.log2_eq
  induction fuel generalizing n with
  | zero => exact (toPoly_mod_of_lt hd hn).symm
  | succ fuel ih =>
    rw [pmodTurns]
    split
    next hturn =>
      obtain ⟨hne, hle⟩ := hturn
      have hlog : n.log2 < d.log2 + (fuel + 1) := (Nat.log2_lt hne).2 hn
      have hnext : n ^^^ (d <<< (n.log2 - d.log2)) < 2 ^ (d.log2 + fuel) :=
        lt_two_pow_of_le (xor_aligned_lt hne hd.ne_zero hle) (by omega)
      rw [ih hnext, toPoly_xor_shiftLeft_mod]
    next hstop =>
      have hlow : n < 2 ^ d.log2 := by
        obtain rfl | hne := eq_or_ne n 0
        · exact Nat.two_pow_pos _
        · exact (Nat.log2_lt hne).1 (not_le.1 fun hle => hstop ⟨hne, hle⟩)
      exact (toPoly_mod_of_lt hd hlow).symm

/-- `pmod` is the remainder of polynomials. -/
theorem toPoly_pmod {d j : Nat} (hd : IsTopBit d j) (n : Nat) :
    toPoly (pmod n d) = toPoly n % toPoly d :=
  toPoly_pmodTurns hd (lt_two_pow_of_le Nat.lt_log2_self (Nat.le_add_left _ j))

section

variable {d j : Nat} (hd : IsTopBit d j)
include hd

theorem pmodTurns_eq_pmod {fuel n : Nat} (hn : n < 2 ^ (j + fuel)) :
    pmodTurns d fuel n = pmod n d :=
  toPoly_injective ((toPoly_pmodTurns hd hn).trans (toPoly_pmod hd n).symm)

theorem pmod_lt_of_isTopBit (n : Nat) : pmod n d < 2 ^ j :=
  hd.log2_eq ▸ pmod_lt n hd.ne_zero

theorem pmod_of_lt {n : Nat} (hn : n < 2 ^ j) : pmod n d = n :=
  toPoly_injective ((toPoly_pmod hd n).trans (toPoly_mod_of_lt hd hn))

theorem pmod_self : pmod d d = 0 :=
  toPoly_injective (by rw [toPoly_pmod hd, EuclideanDomain.mod_self, toPoly_zero])

theorem pmod_xor (a b : Nat) : pmod (a ^^^ b) d = pmod a d ^^^ pmod b d :=
  toPoly_injective (by simp [toPoly_pmod hd, add_mod])

theorem pmod_xor_shiftLeft (n i : Nat) : pmod (n ^^^ (d <<< i)) d = pmod n d :=
  toPoly_injective (by rw [toPoly_pmod hd, toPoly_pmod hd, toPoly_xor_shiftLeft_mod])

theorem pmod_clmul_self (q : Nat) : pmod (clmul q d) d = 0 :=
  toPoly_injective (by simp [toPoly_pmod hd])

/-- The remainder is what is left beside some multiple of the divisor (41_polynomial.md R154 (c)). -/
theorem exists_eq_clmul_xor_pmod (n : Nat) : ∃ q, n = clmul q d ^^^ pmod n d := by
  obtain ⟨q, hq⟩ := toPoly_surjective (toPoly n / toPoly d)
  refine ⟨q, toPoly_injective ?_⟩
  rw [toPoly_xor, toPoly_clmul, hq, toPoly_pmod hd, mul_comm, EuclideanDomain.div_add_mod]

theorem exists_eq_clmul_xor_iff {n r : Nat} (hr : r < 2 ^ j) :
    (∃ q, n = clmul q d ^^^ r) ↔ r = pmod n d := by
  constructor
  · rintro ⟨q, rfl⟩
    rw [pmod_xor hd, pmod_clmul_self hd, pmod_of_lt hd hr, Nat.zero_xor]
  · rintro rfl
    exact exists_eq_clmul_xor_pmod hd n

end

theorem isTopBit_one : IsTopBit 1 0 := isTopBit_log2 one_ne_zero

theorem pmod_one (n : Nat) : pmod n 1 = 0 := by
  simpa using pmod_lt_of_isTopBit isTopBit_one n

theorem zero_pmod {d j : Nat} (hd : IsTopBit d j) : pmod 0 d = 0 :=
  pmod_of_lt hd (Nat.two_pow_pos j)

end Sys2Proof.Machine

open Sys2Proof.Machine Sys2Proof.Claims

/-- Settles O43. A turn adds a multiple of the divisor, which keeps the remainder, and a number of a
lower degree than the divisor is its own remainder. -/
theorem pmodFollowsLoop : Obligations.PmodFollowsLoop := by
  intro n d j hd
  refine ⟨fun k _ _ => (pmod_xor_shiftLeft hd n (k - j)).symm, ?_⟩
  rintro (rfl | ⟨k, hn, hkj⟩)
  · exact zero_pmod hd
  · exact pmod_of_lt hd (hn.lt_iff.2 hkj)

/-- Settles O44. Laws (a) to (g), each from the remainder of polynomials. -/
theorem pmodLaws : Obligations.PmodLaws := by
  intro d j hd
  have hturns (n : Nat) (hn : n < 2 ^ 128) : n < 2 ^ (j + (128 - j)) :=
    lt_two_pow_of_le hn (by omega)
  exact ⟨fun n hn => pmodTurns_eq_pmod hd (hturns n hn), pmod_lt_of_isTopBit hd,
    fun n r hr => exists_eq_clmul_xor_iff hd hr, pmod_one, fun n => pmod_of_lt hd, pmod_self hd,
    pmod_xor hd⟩

/-- Settles O46. The laws of the polynomial ring, and the bound of a remainder. -/
theorem ringLaws : Obligations.RingLaws :=
  ⟨fun a b => ⟨BitVec.xor_self, BitVec.xor_zero, BitVec.xor_comm a b⟩, clmul_comm, clmul_assoc,
    clmul_xor, fun a _ _ hm => pmod_lt_of_isTopBit hm (clmul a a)⟩

end

section
/-! The polynomial commands (41_polynomial.md R156 to R159). Each result fits the register it is
written to, so that it stands there exactly. -/

namespace Sys2Proof.Claims

open Sys2Proof.Machine

/-- A result that fits `R` is given by `writeResult`. -/
theorem givesResult_of_writeResult {i : Instr} {s : State} {v : Nat} (hv : v < 2 ^ 64)
    (hexec : exec i s = writeResult (word v) s) : GivesResult i s v :=
  ⟨word v, word_toNat hv, hexec⟩

theorem toNat_ne_zero {w : Word} (h : w ≠ 0#64) : w.toNat ≠ 0 :=
  fun h0 => h (BitVec.eq_of_toNat_eq h0)

/-- The highest set bit of a register's content. -/
theorem isTopBit_toNat_log2 {w : Word} (h : w ≠ 0#64) : IsTopBit w.toNat w.toNat.log2 :=
  isTopBit_log2 (toNat_ne_zero h)

theorem log2_toNat_lt {w : Word} (h : w ≠ 0#64) : w.toNat.log2 < 64 :=
  (Nat.log2_lt (toNat_ne_zero h)).2 w.isLt

/-- Bit 127 of `PR` is 0 after every PMUL (41_polynomial.md R152). -/
theorem productOf_bit_127 (s : State) : (productOf s).getLsbD 127 = false := by
  rw [BitVec.getLsbD, productOf_toNat]
  exact Nat.testBit_eq_false_of_lt (clmul_lt_two_pow s.a.isLt s.b.isLt)

theorem productOf_of_zero {s : State} (h : s.a = 0#64 ∨ s.b = 0#64) : productOf s = 0#128 := by
  refine BitVec.eq_of_toNat_eq ((productOf_toNat s).trans ?_)
  obtain ha | hb := h
  · rw [ha]
    exact zero_clmul _
  · rw [hb]
    exact clmul_zero _

theorem productOf_of_one {s : State} (h : s.b = 1#64) : productOf s = s.a.setWidth 128 := by
  refine BitVec.eq_of_toNat_eq ((productOf_toNat s).trans ?_)
  rw [h, BitVec.toNat_setWidth_of_le (by decide)]
  exact clmul_one _

/-- PRED with a modulus: the remainder fits `R`. -/
theorem pred_givesResult {s : State} (h : s.m ≠ 0#64) :
    GivesResult .pred s (pmod s.pr.toNat s.m.toNat) :=
  givesResult_of_writeResult (pmod_toNat_lt _ h) (exec_pred_of_ne_zero h)

/-- The corner cases of 41_polynomial.md R158 with remainder 0. -/
theorem pred_remainder_zero {s : State}
    (h : s.m = 1#64 ∨ (s.m ≠ 0#64 ∧ (s.pr = 0#128 ∨ s.pr = s.m.setWidth 128))) :
    pmod s.pr.toNat s.m.toNat = 0 := by
  obtain hone | ⟨hm, hzero | hself⟩ := h
  · rw [hone]
    exact pmod_one _
  · rw [hzero]
    exact zero_pmod (isTopBit_toNat_log2 hm)
  · rw [hself, BitVec.toNat_setWidth_of_le (by decide)]
    exact pmod_self (isTopBit_toNat_log2 hm)

theorem exec_pdeg_of_zero {s : State} (h : s.a = 0#64) : exec .pdeg s = writeResult degNone s := by
  simp [exec, execPdeg, h, deg]

theorem exec_pdeg_of_isTopBit {s : State} {k : Nat} (h : IsTopBit s.a.toNat k) :
    exec .pdeg s = writeResult (word k) s := by
  simp [exec, execPdeg, deg_eq_some_iff.2 h]

end Sys2Proof.Claims

open Sys2Proof Sys2Proof.Machine Sys2Proof.Claims

/-- Settles O11. The exclusive OR of bit vectors, bit by bit. -/
theorem paddXorsOperands : Obligations.PaddXorsOperands :=
  ⟨nWord_of_shape rfl, fun s =>
    ⟨padd s.a s.b, complete_eq_ended (s.setR _), fun _ => BitVec.getLsbD_xor⟩⟩

/-- Settles O12. The product is below `2^127`, so `PR` holds it exactly. -/
theorem pmulWritesWholeProduct : Obligations.PmulWritesWholeProduct :=
  ⟨nWord_of_shape rfl, fun s => ⟨productOf s, productOf_toNat s, exec_pmul s, productOf_bit_127 s,
    productOf_of_zero, productOf_of_one⟩, by decide +kernel, by decide +kernel, by decide +kernel⟩

/-- Settles O13. A zero modulus is the error of R158; otherwise the laws of the remainder give the
result and its corner cases. -/
theorem predReducesProduct : Obligations.PredReducesProduct := by
  refine ⟨nWord_of_shape rfl, fun s hm => ?_, fun s => pred_givesResult,
    fun s h => ?_, fun s j k hpr hm hjk => ?_, by decide +kernel⟩
  · exact (exec_pred_of_zero hm).trans (raise_eq_failed .zmod s)
  · have hm : s.m ≠ 0#64 := by
      obtain hone | ⟨hm, -⟩ := h
      · rw [hone]; decide
      · exact hm
    exact pred_remainder_zero h ▸ pred_givesResult hm
  · have hm0 : s.m ≠ 0#64 := fun h => hm.ne_zero (by rw [h]; rfl)
    have hpmod : pmod s.pr.toNat s.m.toNat = s.pr.toNat := pmod_of_lt hm (hpr.lt_iff.2 hjk)
    exact hpmod ▸ pred_givesResult hm0

/-- Settles O14. The degree of a non-zero register is at most 63; zero gives the sentinel. -/
theorem pdegFindsTopBit : Obligations.PdegFindsTopBit := by
  refine ⟨nWord_of_shape rfl, fun s => exec_pdeg_of_zero, fun s h => ?_⟩
  have hk : s.a.toNat.log2 < 64 := log2_toNat_lt h
  exact ⟨_, by omega, isTopBit_toNat_log2 h, givesResult_of_writeResult (hk.trans (by decide))
    (exec_pdeg_of_isTopBit (isTopBit_toNat_log2 h))⟩

end

section
/-! PIRR (42_irreducibility.md R186): the decoding of its immediate and its one result; and that no
command but those of the field and RDFM, RDFP, RDFG looks at the instance. -/

namespace Sys2Proof.Claims

open Sys2Proof.Machine

/-- Six bits extended with zeros keep their value (30_encoding.md R81). -/
theorem smallImmediate_toNat (v : BitVec 6) : (0#58 ++ v : Word).toNat = v.toNat :=
  (BitVec.toNat_append 0#58 v).trans (by simp)

/-- The immediate of PIRR as the encoder writes it. -/
theorem ofNat_eq_smallImmediate {p : Nat} (hp : p < 64) :
    BitVec.ofNat 64 p = (0#58 ++ BitVec.ofNat 6 p : Word) := by
  refine BitVec.eq_of_toNat_eq ?_
  rw [smallImmediate_toNat, BitVec.toNat_ofNat, BitVec.toNat_ofNat]
  omega

theorem decode_pirr {p : Nat} (hp : p < 64) :
    decode (0x48#8 ++ BitVec.ofNat 64 p) = .ok (.pirr p) := by
  rw [ofNat_eq_smallImmediate hp]
  exact decode_encode (i := .pirr p) (decide_eq_true hp)

/-- A reserved immediate bit of PIRR is set where the immediate does not fit six bits
(30_encoding.md R82). -/
theorem smallImmediate_high_ne_zero {imm : Word} (h : 64 ≤ imm.toNat) :
    imm.extractLsb' 6 58 ≠ 0#58 := by
  intro hhigh
  have hlt : imm.toNat < 64 := by
    rw [← smallImmediate_of_high hhigh, smallImmediate_toNat]
    exact smallImmediate_lt _
  omega

theorem execWord_pirr_of_wide {imm : Word} (h : 64 ≤ imm.toNat) (s : State) :
    execWord (0x48#8 ++ imm) s = .next (failed 1#4 s) :=
  execWord_of_illegal_failed
    ((decode_of_shape_s rfl imm).trans (if_neg (smallImmediate_high_ne_zero h))) s

theorem exec_pirr (p : Nat) (s : State) :
    exec (.pirr p) s =
      .next (ended { s with r := if isIrreducible s.m.toNat p then 1#64 else 0#64 }) := by
  simp only [exec, execPirr]
  split <;> rfl

/-- 42_irreducibility.md R185 (b). -/
theorem isIrreducible_of_not_isTopBit {f p : Nat} (h : ¬ IsTopBit f p) :
    isIrreducible f p = false :=
  Bool.eq_false_iff.2 fun htrue => h (isTopBit_of_deg (deg_of_isIrreducible htrue))

/-- The command completes from a state, ending in `o`, and on the instance `c` its end `o'` is the
same but for the instance. -/
def CompletesAlikeOn (c : FieldConfig) (o o' : Result) : Prop :=
  ∃ t, o = .next t ∧ o' = .next { t with field := c }

theorem completesAlikeOn_ite {c : FieldConfig} {q : Prop} [Decidable q] {x x' y y' : Result}
    (hx : CompletesAlikeOn c x x') (hy : CompletesAlikeOn c y y') :
    CompletesAlikeOn c (if q then x else y) (if q then x' else y') := by
  split <;> assumption

end Sys2Proof.Claims

open Sys2Proof Sys2Proof.Machine Sys2Proof.Claims

/-- Settles O15. An immediate below 64 is the encoder's own; the result is one of two writes of `R`; a
candidate of another degree fails the test, and zero has no degree. -/
theorem pirrAnswersOneOrZero : Obligations.PirrAnswersOneOrZero :=
  ⟨fun p s hp => ⟨decode_pirr hp, execWord_of_decode (decode_pirr hp) s⟩,
    fun imm s himm => execWord_pirr_of_wide himm s, exec_pirr,
    fun p => isIrreducible_of_not_isTopBit fun h => h.ne_zero rfl,
    by decide +kernel, by decide +kernel, by decide +kernel,
    fun f => rfl, fun f p => isIrreducible_of_not_isTopBit, by decide +kernel, by decide +kernel⟩

/-- Settles O29. PRED, PDEG and PIRR choose their end by registers alone, and each other command that
does not use the instance has one end. -/
theorem otherCommandsIgnoreInstance : Obligations.OtherCommandsIgnoreInstance := by
  intro i s c h
  cases i with
  | pred => exact completesAlikeOn_ite ⟨_, rfl, rfl⟩ ⟨_, rfl, rfl⟩
  | pirr p6 => exact completesAlikeOn_ite ⟨_, rfl, rfl⟩ ⟨_, rfl, rfl⟩
  | pdeg =>
    simp only [exec, execPdeg]
    split <;> exact ⟨_, rfl, rfl⟩
  | rdfm | rdfp | rdfg | fadd | fmul | fdiv | finv | fpow | flog | fexp => cases h
  | _ => exact ⟨_, rfl, rfl⟩

end

section
/-! The greatest common divisor (42_irreducibility.md R180), the squaring chain (R181) and the prime
divisors (R182). -/

namespace Sys2Proof.Machine

open Polynomial Sys2Proof.Claims

theorem exists_eq_clmul_iff_dvd {a d : Nat} : (∃ q, a = clmul q d) ↔ toPoly d ∣ toPoly a := by
  constructor
  · rintro ⟨q, rfl⟩
    exact ⟨toPoly q, by rw [toPoly_clmul, mul_comm]⟩
  · rintro ⟨q', hq'⟩
    obtain ⟨q, rfl⟩ := toPoly_surjective q'
    exact ⟨q, toPoly_injective (by rw [hq', toPoly_clmul, mul_comm])⟩

/-- The loop ends in the greatest common divisor when it has a turn for each bit of `b`. -/
theorem toPoly_pgcdTurns {fuel a b : Nat} (hb : b < 2 ^ fuel) :
    toPoly (pgcdTurns fuel a b) = EuclideanDomain.gcd (toPoly b) (toPoly a) := by
  induction fuel generalizing a b with
  | zero =>
    obtain rfl : b = 0 := by simpa using hb
    simp [pgcdTurns]
  | succ fuel ih =>
    rw [pgcdTurns]
    split
    next hzero => simp [hzero]
    next hne =>
      have hlog : b.log2 < fuel + 1 := (Nat.log2_lt hne).2 hb
      have hnext : pmod a b < 2 ^ fuel := lt_two_pow_of_le (pmod_lt a hne) (by omega)
      rw [ih hnext, toPoly_pmod (isTopBit_log2 hne), ← EuclideanDomain.gcd_val]

/-- `pgcd` is the greatest common divisor of polynomials. -/
theorem toPoly_pgcd (a b : Nat) :
    toPoly (pgcd a b) = EuclideanDomain.gcd (toPoly b) (toPoly a) :=
  toPoly_pgcdTurns Nat.lt_log2_self

theorem pgcd_zero (a : Nat) : pgcd a 0 = a :=
  toPoly_injective (by simp [toPoly_pgcd])

theorem zero_pgcd (a : Nat) : pgcd 0 a = a :=
  toPoly_injective (by simp [toPoly_pgcd])

/-- One turn of Euclid's loop. -/
theorem pgcd_of_ne_zero {b : Nat} (a : Nat) (hb : b ≠ 0) : pgcd a b = pgcd b (pmod a b) := by
  refine toPoly_injective ?_
  rw [toPoly_pgcd, toPoly_pgcd, toPoly_pmod (isTopBit_log2 hb), ← EuclideanDomain.gcd_val]

section

variable {f p : Nat} (hf : IsTopBit f p)
include hf

theorem squareChain_eq_pmod (k : Nat) : squareChain f k = pmod (2 ^ 2 ^ k) f := by
  induction k with
  | zero => rfl
  | succ k ih =>
    refine toPoly_injective ?_
    rw [squareChain, ih, toPoly_pmod hf, toPoly_clmul, toPoly_pmod hf, ← mul_mod, toPoly_two_pow,
      ← pow_add, ← two_mul, ← pow_succ', toPoly_pmod hf, toPoly_two_pow]

theorem squareChain_lt (k : Nat) : squareChain f k < 2 ^ p := by
  rw [squareChain_eq_pmod hf]
  exact pmod_lt_of_isTopBit hf _

theorem squareChain_zero_of_two_le (hp : 2 ≤ p) : squareChain f 0 = 0b10 :=
  pmod_of_lt hf ((IsTopBit.lt_iff (isTopBit_log2 two_ne_zero)).2 hp)

end

theorem isPrime_iff {r : Nat} : isPrime r = true ↔ r.Prime := by
  rw [isPrime, Nat.prime_def_lt']
  simp only [Bool.and_eq_true, decide_eq_true_eq, List.all_eq_true, List.mem_range,
    Bool.or_eq_true, Nat.dvd_iff_mod_eq_zero]
  exact and_congr_right fun _ => forall_congr' fun k => by omega

theorem mem_primeDivisors_iff {p r : Nat} (hp : 1 ≤ p) :
    r ∈ primeDivisors p ↔ r.Prime ∧ r ∣ p := by
  simp only [primeDivisors, List.mem_filter, List.mem_range, Bool.and_eq_true, decide_eq_true_eq,
    isPrime_iff, ← Nat.dvd_iff_mod_eq_zero]
  constructor
  · rintro ⟨-, hdvd, hprime⟩
    exact ⟨hprime, hdvd⟩
  · rintro ⟨hprime, hdvd⟩
    exact ⟨Nat.lt_succ_of_le (Nat.le_of_dvd hp hdvd), hdvd, hprime⟩

end Sys2Proof.Machine

open Sys2Proof.Machine Sys2Proof.Claims

/-- Settles O47. A turn of the loop is a turn of the Euclidean algorithm on polynomials, and multiples
of numbers are multiples of polynomials. -/
theorem pgcdIsGreatestCommonDivisor : Obligations.PgcdIsGreatestCommonDivisor := by
  refine ⟨fun a b => ?_, fun a => ⟨pgcd_zero a, zero_pgcd a⟩, fun a b => ?_⟩
  · split
    next hb => rw [hb, pgcd_zero]
    next hb => exact pgcd_of_ne_zero a hb
  · simp only [exists_eq_clmul_iff_dvd, toPoly_pgcd]
    exact ⟨EuclideanDomain.gcd_dvd_right _ _, EuclideanDomain.gcd_dvd_left _ _,
      fun e ha hb => EuclideanDomain.dvd_gcd hb ha⟩

/-- Settles O48. Each square doubles the exponent of `x`, and a remainder is below `2^p`. -/
theorem squareChainIsPowerOfX : Obligations.SquareChainIsPowerOfX :=
  ⟨fun _ _ _ hf => ⟨rfl, squareChain_zero_of_two_le hf,
    fun k => ⟨rfl, squareChain_eq_pmod hf k, squareChain_lt hf k⟩⟩, by decide +kernel,
    by decide +kernel⟩

/-- Settles O49. The list is the filter of the numbers up to `p`; its entries and its length are those
of the table of R182. -/
theorem primeDivisorsAreThePrimes : Obligations.PrimeDivisorsAreThePrimes :=
  ⟨fun _ _ => mem_primeDivisors_iff, by decide +kernel, by decide +kernel, by decide +kernel,
    by decide +kernel, by decide +kernel, by decide +kernel⟩

end

section
/-! Rabin's criterion for polynomials over GF(2): `x^(2^n) - x` is divisible by exactly the
irreducible polynomials whose degree divides `n`. -/

namespace Sys2Proof.Machine

open Polynomial

/-- A proper divisor of `p` divides a quotient of `p` by a prime. -/
theorem exists_prime_dvd_div {d p : Nat} (hp : p ≠ 0) (hdvd : d ∣ p) (hne : d ≠ p) :
    ∃ r, r.Prime ∧ r ∣ p ∧ d ∣ p / r := by
  obtain ⟨e, rfl⟩ := hdvd
  have he : e ≠ 1 := by
    rintro rfl
    exact hne (mul_one d).symm
  obtain ⟨r, hr, m, rfl⟩ := Nat.exists_prime_and_dvd he
  refine ⟨r, hr, ⟨d * m, by ring⟩, m, ?_⟩
  rw [show d * (r * m) = r * (d * m) by ring, Nat.mul_div_cancel_left _ hr.pos]

theorem dvd_X_pow_sub_X_iff {G : (ZMod 2)[X]} (hG : Irreducible G) {n : Nat} :
    G ∣ X ^ 2 ^ n - X ↔ G.natDegree ∣ n := by
  simpa using hG.natDegree_dvd_iff_dvd_X_pow_card_pow_sub_X.symm

section

variable {F : (ZMod 2)[X]} (hpos : 0 < F.natDegree)
include hpos

/-- An irreducible polynomial passes both conditions of 42_irreducibility.md R184: its degree divides
itself, and does not divide a proper quotient. -/
theorem rabin_of_irreducible (hF : Irreducible F) :
    F ∣ X ^ 2 ^ F.natDegree - X ∧
      ∀ r, r.Prime → r ∣ F.natDegree → IsCoprime F (X ^ 2 ^ (F.natDegree / r) - X) := by
  refine ⟨(dvd_X_pow_sub_X_iff hF).2 dvd_rfl, fun r hr hdvd => ?_⟩
  rw [hF.coprime_iff_not_dvd, dvd_X_pow_sub_X_iff hF]
  exact Nat.not_dvd_of_pos_of_lt (Nat.div_pos (Nat.le_of_dvd hpos hdvd) hr.pos)
    (Nat.div_lt_self hpos hr.one_lt)

/-- An irreducible factor of a polynomial that passes both conditions has its whole degree. -/
theorem irreducible_of_rabin (hdvd : F ∣ X ^ 2 ^ F.natDegree - X)
    (hcoprime : ∀ r, r.Prime → r ∣ F.natDegree → IsCoprime F (X ^ 2 ^ (F.natDegree / r) - X)) :
    Irreducible F := by
  have hF0 : F ≠ 0 := ne_zero_of_natDegree_gt hpos
  obtain ⟨G, hG, hGF⟩ := WfDvdMonoid.exists_irreducible_factor
    (not_isUnit_of_natDegree_pos F hpos) hF0
  have hdeg : G.natDegree = F.natDegree := by
    by_contra hne
    have hGdvd : G.natDegree ∣ F.natDegree := (dvd_X_pow_sub_X_iff hG).1 (hGF.trans hdvd)
    obtain ⟨r, hr, hrF, hGr⟩ := exists_prime_dvd_div hpos.ne' hGdvd hne
    exact hG.not_isUnit
      ((hcoprime r hr hrF).isUnit_of_dvd' hGF ((dvd_X_pow_sub_X_iff hG).2 hGr))
  exact (associated_of_dvd_of_natDegree_le hGF hF0 hdeg.ge).irreducible hG

end

end Sys2Proof.Machine
end

section
/-! Rabin's test of 42_irreducibility.md R184 is that criterion, on the numbers that stand for the
polynomials. -/

namespace Sys2Proof.Machine

open Polynomial Sys2Proof.Claims

theorem isUnit_toPoly_iff {n : Nat} : IsUnit (toPoly n) ↔ n = 1 := by
  refine ⟨fun h => ?_, fun h => by simp [h]⟩
  have htop : IsTopBit n 0 := isTopBit_iff_degree_toPoly.2 (degree_eq_zero_of_isUnit h)
  have hle : 2 ^ 0 ≤ n := htop.two_pow_le
  have hlt : n < 2 ^ (0 + 1) := htop.lt_two_pow
  omega

theorem pgcd_eq_one_iff {a b : Nat} : pgcd a b = 1 ↔ IsCoprime (toPoly b) (toPoly a) := by
  rw [← isUnit_toPoly_iff, toPoly_pgcd, EuclideanDomain.gcd_isUnit_iff]

theorem pmod_eq_zero_iff {n d j : Nat} (hd : IsTopBit d j) :
    pmod n d = 0 ↔ toPoly d ∣ toPoly n := by
  rw [← toPoly_eq_zero_iff, toPoly_pmod hd, EuclideanDomain.mod_eq_zero]

/-- The number of the polynomial `x^(2^k) - x`; subtraction is addition (41_polynomial.md R150). -/
theorem toPoly_two_pow_xor_two (k : Nat) : toPoly (2 ^ 2 ^ k ^^^ 2) = X ^ 2 ^ k - X := by
  simp [CharTwo.sub_eq_add]

theorem isIrreducible_iff {f p : Nat} :
    isIrreducible f p = true ↔ 1 ≤ p ∧ IsTopBit f p ∧ squareChain f p = squareChain f 0 ∧
      ∀ r ∈ primeDivisors p, pgcd f (squareChain f (p / r) ^^^ squareChain f 0) = 1 := by
  simp [isIrreducible, deg_eq_some_iff, Nat.one_le_iff_ne_zero]

section

variable {f p : Nat} (hf : IsTopBit f p)
include hf

theorem natDegree_toPoly_of_isTopBit : (toPoly f).natDegree = p :=
  natDegree_eq_of_degree_eq_some (degree_toPoly_of_isTopBit hf)

theorem squareChain_xor_start (k : Nat) :
    squareChain f k ^^^ squareChain f 0 = pmod (2 ^ 2 ^ k ^^^ 2) f := by
  rw [squareChain_eq_pmod hf, squareChain, pmod_xor hf]

/-- Condition 1 of Rabin's test (42_irreducibility.md R184). -/
theorem squareChain_eq_start_iff (k : Nat) :
    squareChain f k = squareChain f 0 ↔ toPoly f ∣ X ^ 2 ^ k - X := by
  rw [← Nat.xor_eq_zero_iff, squareChain_xor_start hf, pmod_eq_zero_iff hf, toPoly_two_pow_xor_two]

/-- Condition 2 of Rabin's test: the remainder it takes the divisor with is what Euclid's loop makes of
`x^(2^k) - x` in its first turn. -/
theorem pgcd_squareChain_eq_one_iff (k : Nat) :
    pgcd f (squareChain f k ^^^ squareChain f 0) = 1 ↔ IsCoprime (toPoly f) (X ^ 2 ^ k - X) := by
  rw [squareChain_xor_start hf, ← pgcd_of_ne_zero _ hf.ne_zero, pgcd_eq_one_iff,
    toPoly_two_pow_xor_two]

/-- Irreducibility of the numbers is irreducibility of the polynomials. -/
theorem irreducibleOfDegree_iff (hp : 1 ≤ p) :
    IrreducibleOfDegree f p ↔ Irreducible (toPoly f) := by
  have hunit : ¬ IsUnit (toPoly f) :=
    not_isUnit_of_natDegree_pos _ (hp.trans_eq (natDegree_toPoly_of_isTopBit hf).symm)
  simp only [IrreducibleOfDegree, irreducible_iff, hp, hf, hunit, true_and, not_false_eq_true]
  simp only [toPoly_surjective.forall, ← toPoly_clmul, isUnit_toPoly_iff, toPoly_inj,
    eq_comm (a := f)]

theorem isIrreducible_iff_irreducible (hp : 1 ≤ p) :
    isIrreducible f p = true ↔ Irreducible (toPoly f) := by
  have hdeg : (toPoly f).natDegree = p := natDegree_toPoly_of_isTopBit hf
  subst hdeg
  simp only [isIrreducible_iff, mem_primeDivisors_iff hp, squareChain_eq_start_iff hf,
    pgcd_squareChain_eq_one_iff hf]
  constructor
  · rintro ⟨-, -, hdvd, hcoprime⟩
    exact irreducible_of_rabin hp hdvd fun r hr hrp => hcoprime r ⟨hr, hrp⟩
  · intro h
    obtain ⟨hdvd, hcoprime⟩ := rabin_of_irreducible hp h
    exact ⟨hp, hf, hdvd, fun r ⟨hr, hrp⟩ => hcoprime r hr hrp⟩

end

end Sys2Proof.Machine

open Sys2Proof.Machine Sys2Proof.Claims

/-- Settles O50. Both sides ask for the degree `p >= 1`; given it, both say that the polynomial of `f`
is irreducible. -/
theorem rabinTestIsCorrect : Obligations.RabinTestIsCorrect := by
  intro f p _ _
  by_cases h : 1 ≤ p ∧ IsTopBit f p
  · obtain ⟨hp, hf⟩ := h
    rw [isIrreducible_iff_irreducible hf hp, irreducibleOfDegree_iff hf hp]
  · refine iff_of_false (fun htest => ?_) fun ⟨hp, hf, _⟩ => h ⟨hp, hf⟩
    obtain ⟨hp, hf, -⟩ := isIrreducible_iff.1 htest
    exact h ⟨hp, hf⟩

end

section
/-! The pair an instance is refused for (43_field_build.md R201; 60_exceptions.md R273). -/

namespace Sys2Proof.FieldConfig

theorem legal_eq_false_iff {c : FieldConfig} :
    c.legal = false ↔
      c.degree = 0 ∨ 63 < c.degree ∨ Machine.isIrreducible c.modulus.toNat c.degree = false := by
  rw [← Bool.not_eq_true, legal_iff, not_and_or, not_and_or, not_le, not_le, Nat.lt_one_iff,
    Bool.not_eq_true]

end Sys2Proof.FieldConfig

namespace Sys2Proof.Machine

theorem step_of_illegal {s : State} (h : s.field.legal = false) :
    step s = .fault .invalidModulus := by
  simp [step, h]

end Sys2Proof.Machine

open Sys2Proof.Machine

/-- Settles O4. The check is a conjunction of three tests, and a step looks at the host only where it
passes. -/
theorem illegalPairNeverRuns : Obligations.IllegalPairNeverRuns :=
  ⟨fun _ => Sys2Proof.FieldConfig.legal_eq_false_iff, fun _ => step_of_illegal⟩

end

section
/-! The three searches of the build (43_field_build.md R203, R204, R206): each answers the first hit
in a range of numbers. -/

namespace Sys2Proof.FieldConfig

variable {c : FieldConfig}

/-- The numbers from 0 to `N` are the residues (00_scope.md R10). -/
theorem le_n_iff {x : Nat} : x ≤ c.n ↔ x < 2 ^ c.degree := by
  have hpow : 0 < 2 ^ c.degree := Nat.two_pow_pos _
  unfold n
  omega

theorem one_lt_n (h : 2 ≤ c.degree) : 1 < c.n := le_n_iff.2 (h.trans_lt Nat.lt_two_pow_self)

theorem logFrom_eq_find? (g v fuel i : Nat) :
    c.logFrom g v fuel i (c.power g i) = (List.range' i fuel).find? (c.power g · = v) := by
  induction fuel generalizing i with
  | zero => rfl
  | succ fuel ih =>
    rw [List.range'_succ, List.find?_cons, ← ih (i + 1), logFrom, power]
    by_cases hv : c.power g i = v <;> simp [hv]

/-- The order is the logarithm of 1, looked for from index 1 on. -/
theorem orderFrom_eq_logFrom (x fuel k acc : Nat) :
    c.orderFrom x fuel k acc = c.logFrom x 1 fuel k acc := by
  induction fuel generalizing k acc with
  | zero => rfl
  | succ fuel ih => rw [orderFrom, logFrom, ih]

theorem generatorFrom_eq_find? (fuel x : Nat) :
    c.generatorFrom fuel x = (List.range' x fuel).find? (c.order · = some c.n) := by
  induction fuel generalizing x with
  | zero => rfl
  | succ fuel ih =>
    rw [List.range'_succ, List.find?_cons, ← ih (x + 1), generatorFrom]
    by_cases hx : c.order x = some c.n <;> simp [hx]

/-- The least positive exponent of 1 (43_field_build.md R203). The search starts from `x` itself, so
`x` has to be the first of its powers. -/
theorem order_eq_some_iff {x k : Nat} (hx : c.power x 1 = x) :
    c.order x = some k ↔
      1 ≤ k ∧ k ≤ c.n ∧ c.power x k = 1 ∧ ∀ j, 1 ≤ j → j < k → c.power x j ≠ 1 := by
  have horder : c.order x = (List.range' 1 c.n).find? (c.power x · = 1) := by
    rw [← logFrom_eq_find?, hx, order, orderFrom_eq_logFrom]
  simp only [horder, List.find?_range'_eq_some, List.mem_range'_1, decide_eq_true_eq,
    Bool.not_eq_true', decide_eq_false_iff_not, ne_eq]
  constructor
  · rintro ⟨hone, ⟨hpos, hlt⟩, hleast⟩
    exact ⟨hpos, by omega, hone, hleast⟩
  · rintro ⟨hpos, hle, hone, hleast⟩
    exact ⟨hone, ⟨hpos, by omega⟩, hleast⟩

/-- The least residue of full order (43_field_build.md R204), where there is one. -/
theorem generator_isLeast (h : ∃ x, 1 ≤ x ∧ x ≤ c.n ∧ c.order x = some c.n) :
    1 ≤ c.generator ∧ c.generator ≤ c.n ∧ c.order c.generator = some c.n ∧
      ∀ x, 1 ≤ x → x < c.generator → c.order x ≠ some c.n := by
  obtain ⟨x, hpos, hle, hx⟩ := h
  have hfound : ((List.range' 1 c.n).find? (c.order · = some c.n)).isSome :=
    List.find?_isSome.2 ⟨x, List.mem_range'_1.2 (by omega), decide_eq_true hx⟩
  obtain ⟨g, hg⟩ := Option.isSome_iff_exists.1 hfound
  have hgen : c.generator = g := by rw [generator, generatorFrom_eq_find?, hg, Option.getD_some]
  simp only [List.find?_range'_eq_some, List.mem_range'_1, decide_eq_true_eq,
    Bool.not_eq_true', decide_eq_false_iff_not] at hg
  obtain ⟨hfull, ⟨hg1, hgn⟩, hleast⟩ := hg
  rw [hgen]
  exact ⟨hg1, by omega, hfull, hleast⟩

theorem generator_lt : c.generator < 2 ^ c.degree := le_n_iff.1 (generator_le_n c)

/-- Where the entries of `ALOG` differ, `LOG` answers the index of each (43_field_build.md R207). -/
theorem log_alog_of_injOn (hinj : Set.InjOn c.alog (Set.Iio c.n)) {i : Nat} (hi : i < c.n) :
    c.log (c.alog i) = i := by
  have hfind : (List.range' 0 c.n).find? (c.power c.generator · = c.alog i) = some i := by
    simp only [List.find?_range'_eq_some, List.mem_range'_1, decide_eq_true_eq,
      Bool.not_eq_true', decide_eq_false_iff_not]
    exact ⟨rfl, by omega, fun j _ hj heq => hj.ne (hinj (hj.trans hi) hi heq)⟩
  have hlog : c.logFrom c.generator (c.alog i) c.n 0 1 = some i :=
    (logFrom_eq_find? c.generator (c.alog i) c.n 0).trans hfind
  rw [log, hlog, Option.getD_some]

end Sys2Proof.FieldConfig
end

section
/-! The field of a legal pair: the polynomials over GF(2) modulo the modulus (43_field_build.md R201,
R202). A number below `2^p` names one element, `fprod` is the multiplication, and `power` the power. -/

namespace Sys2Proof.FieldConfig

open Polynomial Sys2Proof.Machine Sys2Proof.Claims

/-- The residue class of the polynomial of `a`. -/
noncomputable def residue (c : FieldConfig) (a : Nat) : AdjoinRoot (toPoly c.modulus.toNat) :=
  AdjoinRoot.mk _ (toPoly a)

variable {c : FieldConfig}

@[simp] theorem residue_zero : c.residue 0 = 0 := by simp [residue]

@[simp] theorem residue_one : c.residue 1 = 1 := by simp [residue]

section

variable (hc : c.legal = true)
include hc

theorem isTopBit_modulus : IsTopBit c.modulus.toNat c.degree := by
  obtain ⟨-, -, htest⟩ := legal_iff.1 hc
  exact isTopBit_of_deg (deg_of_isIrreducible htest)

theorem irreducible_modulus : Irreducible (toPoly c.modulus.toNat) := by
  obtain ⟨hpos, -, htest⟩ := legal_iff.1 hc
  exact (isIrreducible_iff_irreducible (isTopBit_modulus hc) hpos).1 htest

theorem n_pos_of_legal : 0 < c.n := by
  obtain ⟨hpos, -, -⟩ := legal_iff.1 hc
  exact n_pos hpos

theorem one_lt_two_pow_of_legal : 1 < 2 ^ c.degree := le_n_iff.1 (n_pos_of_legal hc)

theorem fprod_lt (a b : Nat) : c.fprod a b < 2 ^ c.degree :=
  pmod_lt_of_isTopBit (isTopBit_modulus hc) _

theorem power_lt (x k : Nat) : c.power x k < 2 ^ c.degree := by
  cases k with
  | zero => exact one_lt_two_pow_of_legal hc
  | succ k => exact fprod_lt hc _ _

theorem power_one {x : Nat} (hx : x < 2 ^ c.degree) : c.power x 1 = x := by
  rw [power, power, fprod, clmul_comm, clmul_one, pmod_of_lt (isTopBit_modulus hc) hx]

theorem residue_pmod (n : Nat) : c.residue (pmod n c.modulus.toNat) = c.residue n := by
  obtain ⟨q, hq⟩ := exists_eq_clmul_xor_pmod (isTopBit_modulus hc) n
  conv_rhs => rw [hq]
  simp [residue]

theorem residue_fprod (a b : Nat) : c.residue (c.fprod a b) = c.residue a * c.residue b := by
  rw [fprod, residue_pmod hc]
  simp [residue]

theorem residue_power (x k : Nat) : c.residue (c.power x k) = c.residue x ^ k := by
  induction k with
  | zero => simp [power]
  | succ k ih => rw [power, residue_fprod hc, ih, pow_succ]

/-- Two numbers below `2^p` that differ by a multiple of the modulus are equal. -/
theorem residue_injOn : Set.InjOn c.residue (Set.Iio (2 ^ c.degree)) := by
  intro a ha b hb hab
  have hdvd : toPoly c.modulus.toNat ∣ toPoly (a ^^^ b) := by
    simpa [CharTwo.sub_eq_add] using AdjoinRoot.mk_eq_mk.1 hab
  rwa [← pmod_eq_zero_iff (isTopBit_modulus hc),
    pmod_of_lt (isTopBit_modulus hc) (Nat.xor_lt_two_pow ha hb), Nat.xor_eq_zero_iff] at hdvd

/-- Every element is the class of its remainder. -/
theorem exists_residue_eq (y : AdjoinRoot (toPoly c.modulus.toNat)) :
    ∃ a < 2 ^ c.degree, c.residue a = y := by
  obtain ⟨p, rfl⟩ := AdjoinRoot.mk_surjective y
  obtain ⟨a, rfl⟩ := toPoly_surjective p
  exact ⟨_, pmod_lt_of_isTopBit (isTopBit_modulus hc) a, residue_pmod hc a⟩

/-- The numbers below `2^p` and the elements of the field correspond one to one. -/
theorem residue_bijective : Function.Bijective fun a : Fin (2 ^ c.degree) => c.residue a := by
  refine ⟨fun a b hab => Fin.ext (residue_injOn hc a.isLt b.isLt hab), fun y => ?_⟩
  obtain ⟨a, ha, rfl⟩ := exists_residue_eq hc y
  exact ⟨⟨a, ha⟩, rfl⟩

theorem residue_eq_zero_iff {a : Nat} (ha : a < 2 ^ c.degree) : c.residue a = 0 ↔ a = 0 := by
  rw [← residue_zero, (residue_injOn hc).eq_iff ha (Nat.two_pow_pos _)]

theorem power_eq_one_iff (x k : Nat) : c.power x k = 1 ↔ c.residue x ^ k = 1 := by
  rw [← residue_power hc, ← residue_one,
    (residue_injOn hc).eq_iff (power_lt hc x k) (one_lt_two_pow_of_legal hc)]

/-- A field has no zero divisors (43_field_build.md R202). -/
theorem fprod_eq_zero {a b : Nat} (ha : a < 2 ^ c.degree) (hb : b < 2 ^ c.degree)
    (hab : c.fprod a b = 0) : a = 0 ∨ b = 0 := by
  have : Fact (Irreducible (toPoly c.modulus.toNat)) := ⟨irreducible_modulus hc⟩
  rw [← residue_eq_zero_iff hc ha, ← residue_eq_zero_iff hc hb, ← mul_eq_zero, ← residue_fprod hc,
    hab, residue_zero]

theorem power_ne_zero {x : Nat} (hx : x < 2 ^ c.degree) (hx0 : x ≠ 0) (k : Nat) :
    c.power x k ≠ 0 := by
  induction k with
  | zero => exact one_ne_zero
  | succ k ih => exact fun h => (fprod_eq_zero hc (power_lt hc x k) hx h).elim ih hx0

/-- Full order in the sense of the search is the order of group theory. -/
theorem order_eq_n_iff {x : Nat} (hx : x < 2 ^ c.degree) :
    c.order x = some c.n ↔ orderOf (c.residue x) = c.n := by
  rw [order_eq_some_iff (power_one hc hx), orderOf_eq_iff (n_pos_of_legal hc)]
  simp only [ne_eq, power_eq_one_iff hc]
  constructor
  · rintro ⟨-, -, hn, hleast⟩
    exact ⟨hn, fun j hjn hj => hleast j hj hjn⟩
  · rintro ⟨hn, hleast⟩
    exact ⟨n_pos_of_legal hc, le_rfl, hn, fun j hj hjn => hleast j hjn hj⟩

/-- The units of a finite field form a cyclic group, here of `2^p - 1` elements (43_field_build.md
R205). -/
theorem exists_order_eq_n : ∃ x, 1 ≤ x ∧ x ≤ c.n ∧ c.order x = some c.n := by
  have : Fact (Irreducible (toPoly c.modulus.toNat)) := ⟨irreducible_modulus hc⟩
  have : Finite (AdjoinRoot (toPoly c.modulus.toNat)) := .of_surjective _ (residue_bijective hc).2
  obtain ⟨u, hu⟩ := IsCyclic.exists_ofOrder_eq_natCard (α := (AdjoinRoot (toPoly c.modulus.toNat))ˣ)
  obtain ⟨x, hx, hxu⟩ := exists_residue_eq hc (u : AdjoinRoot (toPoly c.modulus.toNat))
  have hx0 : x ≠ 0 := fun h => u.ne_zero (by rw [← hxu, h, residue_zero])
  refine ⟨x, Nat.one_le_iff_ne_zero.2 hx0, le_n_iff.2 hx, (order_eq_n_iff hc hx).2 ?_⟩
  rw [hxu, orderOf_units, hu, Nat.card_units, ← Nat.card_eq_of_bijective _ (residue_bijective hc),
    Nat.card_fin, n]

/-- The search for a generator succeeds (43_field_build.md R204, R205). -/
theorem generator_spec :
    1 ≤ c.generator ∧ c.generator ≤ c.n ∧ c.order c.generator = some c.n ∧
      ∀ x, 1 ≤ x → x < c.generator → c.order x ≠ some c.n :=
  generator_isLeast (exists_order_eq_n hc)

theorem alog_lt (i : Nat) : c.alog i < 2 ^ c.degree := power_lt hc _ i

theorem orderOf_generator : orderOf (c.residue c.generator) = c.n := by
  obtain ⟨-, -, hfull, -⟩ := generator_spec hc
  exact (order_eq_n_iff hc generator_lt).1 hfull

theorem one_le_alog (i : Nat) : 1 ≤ c.alog i := by
  obtain ⟨hpos, -, -, -⟩ := generator_spec hc
  exact Nat.pos_of_ne_zero (power_ne_zero hc generator_lt (Nat.pos_iff_ne_zero.1 hpos) i)

/-- The powers of an element below its order differ (43_field_build.md R208). -/
theorem alog_injOn : Set.InjOn c.alog (Set.Iio c.n) := by
  intro i hi j hj hij
  have hroot : IsPrimitiveRoot (c.residue c.generator) c.n :=
    orderOf_generator hc ▸ IsPrimitiveRoot.orderOf _
  refine hroot.pow_inj hi hj ?_
  rw [← residue_power hc, ← residue_power hc]
  exact congrArg c.residue hij

theorem log_alog {i : Nat} (hi : i < c.n) : c.log (c.alog i) = i :=
  log_alog_of_injOn (alog_injOn hc) hi

/-- `N` different entries among `N` residues: each occurs (43_field_build.md R208). -/
theorem exists_alog_eq {v : Nat} (hpos : 1 ≤ v) (hle : v ≤ c.n) : ∃ i < c.n, c.alog i = v := by
  have hsurj : Set.SurjOn c.alog (Finset.range c.n) (Finset.Icc 1 c.n) :=
    Finset.surjOn_of_injOn_of_card_le c.alog
      (fun i _ => by simpa using ⟨one_le_alog hc i, le_n_iff.2 (alog_lt hc i)⟩)
      (by simpa using alog_injOn hc) (by simp)
  simpa using hsurj (Finset.mem_coe.2 (Finset.mem_Icc.2 ⟨hpos, hle⟩))

end

end Sys2Proof.FieldConfig

open Sys2Proof Sys2Proof.Machine Sys2Proof.Claims

/-- Settles O51. The bound is that of the remainder, and the residues are a field. -/
theorem residuesHaveNoZeroDivisors : Obligations.ResiduesHaveNoZeroDivisors :=
  fun _ a b hc ha hb =>
    ⟨rfl, FieldConfig.fprod_lt hc a b, FieldConfig.fprod_eq_zero hc ha hb⟩

/-- Settles O52. A residue is the first of its powers, from where the search starts. -/
theorem orderIsLeastExponent : Obligations.OrderIsLeastExponent :=
  fun _ _ _ hc _ hx => FieldConfig.order_eq_some_iff (FieldConfig.power_one hc hx)

/-- Settles O53. The search goes upward from 1 to `N`. -/
theorem generatorIsLeastOfFullOrder : Obligations.GeneratorIsLeastOfFullOrder :=
  fun _ _ => FieldConfig.generator_isLeast

/-- Settles O54. A generator of the group of units has a number below `2^p`, so the search for the
least one ends; the ten pairs are searched by evaluation. -/
theorem legalPairHasGenerator : Obligations.LegalPairHasGenerator := by
  refine ⟨fun c hc => ?_, by decide +kernel⟩
  obtain ⟨-, -, hfull, -⟩ := FieldConfig.generator_spec hc
  exact hfull

/-- Settles O55. `ALOG` is injective on its indices and hits every non-zero residue; `LOG` finds the
one index of each. -/
theorem tablesEnumerateField : Obligations.TablesEnumerateField := by
  intro c hc hfull
  have hone : c.power c.generator 1 = c.generator :=
    FieldConfig.power_one hc FieldConfig.generator_lt
  obtain ⟨-, -, hpower, -⟩ := (FieldConfig.order_eq_some_iff hone).1 hfull
  refine ⟨rfl, fun _ _ => rfl, hpower, FieldConfig.log_alog hc (FieldConfig.n_pos_of_legal hc),
    fun hp => ⟨hone, ?_⟩, fun i hi => ⟨?_, ?_, FieldConfig.log_alog hc hi⟩, fun v hpos hle => ?_⟩
  · have hlog : c.log (c.power c.generator 1) = 1 :=
      FieldConfig.log_alog hc (FieldConfig.one_lt_n hp)
    rwa [hone] at hlog
  · exact FieldConfig.one_le_alog hc i
  · exact FieldConfig.le_n_iff.2 (FieldConfig.alog_lt hc i)
  · obtain ⟨i, hi, rfl⟩ := FieldConfig.exists_alog_eq hc hpos hle
    rw [FieldConfig.log_alog hc hi]
    exact ⟨hi, rfl⟩

end

section
/-! The arithmetic of the two tables of a legal pair (43_field_build.md R206 to R208): `ALOG` turns sums
of indices mod `N` into products, and every non-zero residue is one of its entries. -/

namespace Sys2Proof.FieldConfig

open Sys2Proof.Machine Sys2Proof.Claims

variable {c : FieldConfig}

theorem fprod_comm (a b : Nat) : c.fprod a b = c.fprod b a := by
  rw [fprod, clmul_comm, fprod]

section

variable (hc : c.legal = true)
include hc

theorem fprod_zero (a : Nat) : c.fprod a 0 = 0 := by
  rw [fprod, clmul_zero, zero_pmod (isTopBit_modulus hc)]

theorem zero_fprod (a : Nat) : c.fprod 0 a = 0 := by
  rw [fprod_comm, fprod_zero hc]

theorem fprod_one {a : Nat} (ha : a < 2 ^ c.degree) : c.fprod a 1 = a := by
  rw [fprod, clmul_one, pmod_of_lt (isTopBit_modulus hc) ha]

theorem fprod_xor (a b d : Nat) : c.fprod a (b ^^^ d) = c.fprod a b ^^^ c.fprod a d := by
  rw [fprod, clmul_xor, pmod_xor (isTopBit_modulus hc), fprod, fprod]

theorem fprod_assoc (a b d : Nat) : c.fprod (c.fprod a b) d = c.fprod a (c.fprod b d) := by
  refine residue_injOn hc (fprod_lt hc _ _) (fprod_lt hc _ _) ?_
  simp only [residue_fprod hc, mul_assoc]

theorem fprod_left_comm (a b d : Nat) : c.fprod a (c.fprod b d) = c.fprod b (c.fprod a d) := by
  rw [← fprod_assoc hc, fprod_comm a b, fprod_assoc hc]

/-- Two products by one non-zero residue differ where the factors do: there are no zero divisors. -/
theorem fprod_left_cancel {a v w : Nat} (ha : a < 2 ^ c.degree) (ha0 : a ≠ 0)
    (hv : v < 2 ^ c.degree) (hw : w < 2 ^ c.degree) (h : c.fprod a v = c.fprod a w) : v = w := by
  have hzero : c.fprod a (v ^^^ w) = 0 := by rw [fprod_xor hc, h, Nat.xor_self]
  exact Nat.xor_eq_zero_iff.1 ((fprod_eq_zero hc ha (Nat.xor_lt_two_pow hv hw) hzero).resolve_left ha0)

theorem alog_add (i j : Nat) : c.alog (i + j) = c.fprod (c.alog i) (c.alog j) := by
  refine residue_injOn hc (alog_lt hc _) (fprod_lt hc _ _) ?_
  simp only [alog, residue_fprod hc, residue_power hc, pow_add]

theorem alog_mul (i k : Nat) : c.alog (i * k) = c.power (c.alog i) k := by
  refine residue_injOn hc (alog_lt hc _) (power_lt hc _ _) ?_
  simp only [alog, residue_power hc, pow_mul]

theorem alog_mod (i : Nat) : c.alog (i % c.n) = c.alog i := by
  refine residue_injOn hc (alog_lt hc _) (alog_lt hc _) ?_
  rw [alog, residue_power hc, alog, residue_power hc, ← orderOf_generator hc, pow_mod_orderOf]

theorem alog_n : c.alog c.n = 1 := by
  rw [← alog_mod hc, Nat.mod_self]
  rfl

theorem exists_alog_eq_of_ne_zero {v : Nat} (hv : v < 2 ^ c.degree) (h0 : v ≠ 0) :
    ∃ i < c.n, c.alog i = v :=
  exists_alog_eq hc (Nat.one_le_iff_ne_zero.2 h0) (le_n_iff.2 hv)

theorem log_lt {v : Nat} (hv : v < 2 ^ c.degree) (h0 : v ≠ 0) : c.log v < c.n := by
  obtain ⟨i, hi, rfl⟩ := exists_alog_eq_of_ne_zero hc hv h0
  rwa [log_alog hc hi]

theorem alog_log {v : Nat} (hv : v < 2 ^ c.degree) (h0 : v ≠ 0) : c.alog (c.log v) = v := by
  obtain ⟨i, hi, rfl⟩ := exists_alog_eq_of_ne_zero hc hv h0
  rw [log_alog hc hi]

/-- Lagrange's theorem (44_field_ops.md R237). -/
theorem power_n {x : Nat} (hx : x < 2 ^ c.degree) (h0 : x ≠ 0) : c.power x c.n = 1 := by
  rw [← alog_log hc hx h0, ← alog_mul hc, ← alog_mod hc, Nat.mul_mod_left]
  rfl

theorem one_power (k : Nat) : c.power 1 k = 1 := by
  have hone : c.alog 0 = 1 := rfl
  rw [← hone, ← alog_mul hc, Nat.zero_mul]

theorem zero_power {k : Nat} (hk : k ≠ 0) : c.power 0 k = 0 := by
  obtain ⟨m, rfl⟩ := Nat.exists_eq_succ_of_ne_zero hk
  exact fprod_zero hc _

/-- The index of FMUL (44_field_ops.md R224). -/
theorem alog_of_sum {a b : Nat} (ha : a < 2 ^ c.degree) (ha0 : a ≠ 0) (hb : b < 2 ^ c.degree)
    (hb0 : b ≠ 0) : c.alog ((c.log a + c.log b) % c.n) = c.fprod a b := by
  rw [alog_mod hc, alog_add hc, alog_log hc ha ha0, alog_log hc hb hb0]

/-- The index of FPOW (R232). -/
theorem alog_of_multiple {a : Nat} (ha : a < 2 ^ c.degree) (ha0 : a ≠ 0) (k : Nat) :
    c.alog (c.log a * (k % c.n) % c.n) = c.power a k := by
  rw [Nat.mul_mod_mod, alog_mod hc, alog_mul hc, alog_log hc ha ha0]

/-- The index of FINV (R230). -/
theorem fprod_alog_of_complement {a : Nat} (ha : a < 2 ^ c.degree) (ha0 : a ≠ 0) :
    c.fprod a (c.alog ((c.n - c.log a) % c.n)) = 1 := by
  have hsum : c.log a + (c.n - c.log a) = c.n := Nat.add_sub_cancel' (log_lt hc ha ha0).le
  calc c.fprod a (c.alog ((c.n - c.log a) % c.n))
      = c.fprod (c.alog (c.log a)) (c.alog (c.n - c.log a)) := by
        rw [alog_mod hc, alog_log hc ha ha0]
    _ = 1 := by rw [← alog_add hc, hsum, alog_n hc]

/-- The index of FDIV (R226). -/
theorem fprod_alog_of_difference {a b index : Nat} (ha : a < 2 ^ c.degree) (ha0 : a ≠ 0)
    (hb : b < 2 ^ c.degree) (hb0 : b ≠ 0)
    (hindex : (index : Int) = ((c.log a : Int) - c.log b) % c.n) : c.fprod b (c.alog index) = a := by
  have hmod : (c.log b + index) % c.n = c.log a % c.n := by
    zify
    rw [hindex, Int.add_emod_emod, add_sub_cancel]
  calc c.fprod b (c.alog index)
      = c.alog ((c.log b + index) % c.n) := by rw [alog_mod hc, alog_add hc, alog_log hc hb hb0]
    _ = a := by rw [hmod, alog_mod hc, alog_log hc ha ha0]

theorem exists_fprod_eq_one {a : Nat} (ha : a < 2 ^ c.degree) (ha0 : a ≠ 0) :
    ∃ v < 2 ^ c.degree, c.fprod a v = 1 :=
  ⟨_, alog_lt hc _, fprod_alog_of_complement hc ha ha0⟩

end

end Sys2Proof.FieldConfig
end

section
/-! The field commands (44_field_ops.md): the range check that comes first, and then the one end that a
command has for each kind of operands, in terms of the tables and in terms of the field. -/

namespace Sys2Proof.Claims

open Sys2Proof.Machine

variable {s : State}

theorem inField_zero : inField s 0#64 := Nat.two_pow_pos _

theorem inField_one (hc : s.field.legal = true) : inField s 1#64 :=
  FieldConfig.one_lt_two_pow_of_legal hc

theorem isElement_iff {v : Word} : isElement s.field v = true ↔ inField s v := decide_eq_true_iff

/-- The range check of one operand (R220). -/
theorem ite_element {v : Word} (hv : inField s v) (x y : Result) :
    (if isElement s.field v then x else y) = x :=
  if_pos (isElement_iff.2 hv)

theorem ite_element_of_not {v : Word} (hv : ¬ inField s v) (x : Result) :
    (if isElement s.field v then x else raise .range s) = .next (failed 4#4 s) :=
  if_neg fun h => hv (isElement_iff.1 h)

/-- The range check of two operands. -/
theorem ite_elements {v w : Word} (hv : inField s v) (hw : inField s w) (x y : Result) :
    (if isElement s.field v && isElement s.field w then x else y) = x :=
  if_pos (Bool.and_eq_true_iff.2 ⟨isElement_iff.2 hv, isElement_iff.2 hw⟩)

theorem ite_elements_of_not {v w : Word} (h : ¬ (inField s v ∧ inField s w)) (x : Result) :
    (if isElement s.field v && isElement s.field w then x else raise .range s) =
      .next (failed 4#4 s) := by
  refine if_neg fun hand => h ?_
  obtain ⟨hv, hw⟩ := Bool.and_eq_true_iff.1 hand
  exact ⟨isElement_iff.1 hv, isElement_iff.1 hw⟩

theorem exec_fmul_of_zero (ha : inField s s.a) (hb : inField s s.b) (h0 : s.a = 0#64 ∨ s.b = 0#64) :
    exec .fmul s = writeResult (word 0) s :=
  (ite_elements ha hb _ _).trans (if_pos h0)

theorem exec_fmul_of_ne_zero (ha : inField s s.a) (hb : inField s s.b) (ha0 : s.a ≠ 0#64)
    (hb0 : s.b ≠ 0#64) :
    exec .fmul s = writeResult (word (s.field.alog
      ((s.field.log s.a.toNat + s.field.log s.b.toNat) % s.field.n))) s :=
  (ite_elements ha hb _ _).trans (if_neg (not_or.2 ⟨ha0, hb0⟩))

theorem exec_fdiv_of_zero_divisor (ha : inField s s.a) (hb0 : s.b = 0#64) :
    exec .fdiv s = .next (failed 3#4 s) :=
  (ite_elements ha (hb0 ▸ inField_zero) _ _).trans (if_pos hb0)

theorem exec_fdiv_of_zero (hb : inField s s.b) (ha0 : s.a = 0#64) (hb0 : s.b ≠ 0#64) :
    exec .fdiv s = writeResult (word 0) s :=
  (ite_elements (ha0 ▸ inField_zero) hb _ _).trans ((if_neg hb0).trans (if_pos ha0))

theorem exec_fdiv_of_ne_zero (ha : inField s s.a) (hb : inField s s.b) (ha0 : s.a ≠ 0#64)
    (hb0 : s.b ≠ 0#64) :
    exec .fdiv s = writeResult (word (s.field.alog
      (((s.field.log s.a.toNat : Int) - s.field.log s.b.toNat) % (s.field.n : Int)).toNat)) s :=
  (ite_elements ha hb _ _).trans ((if_neg hb0).trans (if_neg ha0))

theorem exec_finv_of_zero (ha0 : s.a = 0#64) : exec .finv s = .next (failed 3#4 s) :=
  (ite_element (ha0 ▸ inField_zero) _ _).trans (if_pos ha0)

theorem exec_finv_of_ne_zero (ha : inField s s.a) (ha0 : s.a ≠ 0#64) :
    exec .finv s = writeResult (word (s.field.alog
      ((s.field.n - s.field.log s.a.toNat) % s.field.n))) s :=
  (ite_element ha _ _).trans (if_neg ha0)

theorem exec_fpow_of_zero_exponent (ha : inField s s.a) (hb0 : s.b = 0#64) :
    exec .fpow s = writeResult (word 1) s :=
  (ite_element ha _ _).trans (if_pos hb0)

theorem exec_fpow_of_zero (ha0 : s.a = 0#64) (hb0 : s.b ≠ 0#64) :
    exec .fpow s = writeResult (word 0) s :=
  (ite_element (ha0 ▸ inField_zero) _ _).trans ((if_neg hb0).trans (if_pos ha0))

theorem exec_fpow_of_ne_zero (ha : inField s s.a) (ha0 : s.a ≠ 0#64) (hb0 : s.b ≠ 0#64) :
    exec .fpow s = writeResult (word (s.field.alog
      (s.field.log s.a.toNat * (s.b.toNat % s.field.n) % s.field.n))) s :=
  (ite_element ha _ _).trans ((if_neg hb0).trans (if_neg ha0))

theorem exec_flog_of_ne_zero (ha : inField s s.a) (ha0 : s.a ≠ 0#64) :
    exec .flog s = writeResult (word (s.field.log s.a.toNat)) s :=
  if_pos ⟨ha0, isElement_iff.2 ha⟩

theorem exec_flog_of_outside (h : s.a = 0#64 ∨ ¬ inField s s.a) :
    exec .flog s = .next (failed 4#4 s) :=
  if_neg fun ⟨ha0, ha⟩ => h.elim ha0 fun hout => hout (isElement_iff.1 ha)

theorem exec_fexp_of_lt (h : s.a.toNat < s.field.n) :
    exec .fexp s = writeResult (word (s.field.alog s.a.toNat)) s :=
  if_pos h

theorem exec_fexp_of_le (h : s.field.n ≤ s.a.toNat) : exec .fexp s = .next (failed 4#4 s) :=
  if_neg (Nat.not_lt.2 h)

/-- A state holds one result. -/
theorem GivesResult.unique {i : Instr} {v w : Nat} (hv : GivesResult i s v) (hw : GivesResult i s w) :
    v = w := by
  obtain ⟨x, rfl, hx⟩ := hv
  obtain ⟨y, rfl, hy⟩ := hw
  have hended := Host.Outcome.next.inj (hx.symm.trans hy)
  exact congrArg (fun t : State => t.r.toNat) hended

/-- A command that failed gave no result. -/
theorem not_givesResult_of_failed {i : Instr} {e : ErrorCode} (he : e ≠ 0#4)
    (h : exec i s = .next (failed e s)) (v : Nat) : ¬ GivesResult i s v := by
  rintro ⟨w, -, hw⟩
  have hrsp := congrArg State.rsp (Host.Outcome.next.inj (h.symm.trans hw))
  exact he (congrArg Response.err (Option.some.inj hrsp))

/-- A residue differs from its number by a multiple of the modulus. -/
theorem exists_emod_eq_add_mul (d n : Int) : ∃ turns, d % n = d + turns * n :=
  ⟨-(d / n), by rw [Int.emod_def]; ring⟩

section

variable (hc : s.field.legal = true)
include hc

/-- An element of a legal instance fits a register (00_scope.md R8). -/
theorem lt_two_pow_of_element {v : Nat} (hv : v < 2 ^ s.field.degree) : v < 2 ^ 64 := by
  obtain ⟨-, hle, -⟩ := FieldConfig.legal_iff.1 hc
  exact lt_two_pow_of_le hv (hle.trans (by decide))

/-- An element is the content of a register. -/
theorem exists_word_eq {v : Nat} (hv : v < 2 ^ s.field.degree) : ∃ w : Word, w.toNat = v :=
  ⟨word v, word_toNat (lt_two_pow_of_element hc hv)⟩

theorem exists_word_fprod_eq_one {a : Word} (ha : inField s a) (ha0 : a ≠ 0#64) :
    ∃ v : Word, inField s v ∧ s.field.fprod a.toNat v.toNat = 1 := by
  obtain ⟨v, hv, hinverse⟩ := FieldConfig.exists_fprod_eq_one hc ha (toNat_ne_zero ha0)
  obtain ⟨w, rfl⟩ := exists_word_eq hc hv
  exact ⟨w, hv, hinverse⟩

theorem element_givesResult {i : Instr} {v : Nat} (hv : v < 2 ^ s.field.degree)
    (hexec : exec i s = writeResult (word v) s) : GivesResult i s v :=
  givesResult_of_writeResult (lt_two_pow_of_element hc hv) hexec

theorem alog_givesResult {i : Instr} {k : Nat}
    (hexec : exec i s = writeResult (word (s.field.alog k)) s) : GivesResult i s (s.field.alog k) :=
  element_givesResult hc (FieldConfig.alog_lt hc k) hexec

/-- FMUL is the product of the field (R236). -/
theorem fmul_givesResult {v : Nat} (ha : inField s s.a) (hb : inField s s.b)
    (h : s.field.fprod s.a.toNat s.b.toNat = v) : GivesResult .fmul s v := by
  by_cases h0 : s.a = 0#64 ∨ s.b = 0#64
  · obtain rfl : v = 0 := by
      rw [← h]
      obtain ha0 | hb0 := h0
      · rw [ha0]
        exact FieldConfig.zero_fprod hc _
      · rw [hb0]
        exact FieldConfig.fprod_zero hc _
    exact givesResult_of_writeResult (by decide) (exec_fmul_of_zero ha hb h0)
  · obtain ⟨ha0, hb0⟩ := not_or.1 h0
    rw [← h, ← FieldConfig.alog_of_sum hc ha (toNat_ne_zero ha0) hb (toNat_ne_zero hb0)]
    exact alog_givesResult hc (exec_fmul_of_ne_zero ha hb ha0 hb0)

/-- FINV is the inverse of the field (R236). -/
theorem finv_givesResult {v : Nat} (ha : inField s s.a) (hv : v < 2 ^ s.field.degree)
    (h : s.field.fprod s.a.toNat v = 1) : GivesResult .finv s v := by
  have ha0 : s.a ≠ 0#64 := by
    intro h0
    rw [h0] at h
    exact absurd ((FieldConfig.zero_fprod hc v).symm.trans h) zero_ne_one
  have hcomplement := FieldConfig.fprod_alog_of_complement hc ha (toNat_ne_zero ha0)
  rw [FieldConfig.fprod_left_cancel hc ha (toNat_ne_zero ha0) hv (FieldConfig.alog_lt hc _)
    (h.trans hcomplement.symm)]
  exact alog_givesResult hc (exec_finv_of_ne_zero ha ha0)

/-- The index of FDIV is the least non-negative residue of the difference (R226). -/
theorem fdiv_index (x y : Nat) :
    (((x : Int) - y) % (s.field.n : Int)).toNat < s.field.n ∧
      ((((x : Int) - y) % (s.field.n : Int)).toNat : Int) = ((x : Int) - y) % s.field.n := by
  have hn : (0 : Int) < s.field.n := Int.natCast_pos.2 (FieldConfig.n_pos_of_legal hc)
  have hnonneg := Int.emod_nonneg ((x : Int) - y) hn.ne'
  have hlt := Int.emod_lt_of_pos ((x : Int) - y) hn
  omega

/-- FDIV is the quotient of the field (R236). -/
theorem fdiv_givesResult {v : Nat} (ha : inField s s.a) (hb : inField s s.b) (hb0 : s.b ≠ 0#64)
    (hv : v < 2 ^ s.field.degree) (h : s.field.fprod s.b.toNat v = s.a.toNat) :
    GivesResult .fdiv s v := by
  by_cases ha0 : s.a = 0#64
  · rw [ha0] at h
    obtain rfl := (FieldConfig.fprod_eq_zero hc hb hv h).resolve_left (toNat_ne_zero hb0)
    exact givesResult_of_writeResult (by decide) (exec_fdiv_of_zero hb ha0 hb0)
  · obtain ⟨-, hindex⟩ := fdiv_index hc (s.field.log s.a.toNat) (s.field.log s.b.toNat)
    have hquotient := FieldConfig.fprod_alog_of_difference hc ha (toNat_ne_zero ha0) hb
      (toNat_ne_zero hb0) hindex
    rw [FieldConfig.fprod_left_cancel hc hb (toNat_ne_zero hb0) hv (FieldConfig.alog_lt hc _)
      (h.trans hquotient.symm)]
    exact alog_givesResult hc (exec_fdiv_of_ne_zero ha hb ha0 hb0)

/-- FPOW is the power of the field (R236). -/
theorem fpow_givesResult {v : Nat} (ha : inField s s.a)
    (h : s.field.power s.a.toNat s.b.toNat = v) : GivesResult .fpow s v := by
  by_cases hb0 : s.b = 0#64
  · rw [hb0] at h
    obtain rfl : 1 = v := h
    exact givesResult_of_writeResult (by decide) (exec_fpow_of_zero_exponent ha hb0)
  by_cases ha0 : s.a = 0#64
  · rw [ha0] at h
    obtain rfl := (FieldConfig.zero_power hc (toNat_ne_zero hb0)).symm.trans h
    exact givesResult_of_writeResult (by decide) (exec_fpow_of_zero ha0 hb0)
  · rw [← h, ← FieldConfig.alog_of_multiple hc ha (toNat_ne_zero ha0)]
    exact alog_givesResult hc (exec_fpow_of_ne_zero ha ha0 hb0)

/-- FLOG answers the index of the operand in `ALOG` (R234). -/
theorem flog_givesResult {k : Nat} (hk : k < s.field.n) (h : s.field.alog k = s.a.toNat) :
    GivesResult .flog s k := by
  have ha : inField s s.a := h.symm.trans_lt (FieldConfig.alog_lt hc k)
  have ha0 : s.a ≠ 0#64 := by
    intro h0
    rw [h0] at h
    exact Nat.one_le_iff_ne_zero.1 (FieldConfig.one_le_alog hc k) h
  have hlog : s.field.log s.a.toNat = k := h ▸ FieldConfig.log_alog hc hk
  exact element_givesResult hc (FieldConfig.le_n_iff.1 hk.le) (hlog ▸ exec_flog_of_ne_zero ha ha0)

/-- FEXP answers `v` at the index of `v` and at no other operand (R235, R237). -/
theorem fexp_givesResult_iff {v : Nat} :
    GivesResult .fexp s v ↔ s.a.toNat < s.field.n ∧ s.field.alog s.a.toNat = v := by
  have hin (h : s.a.toNat < s.field.n) : GivesResult .fexp s (s.field.alog s.a.toNat) :=
    alog_givesResult hc (exec_fexp_of_lt h)
  refine ⟨fun hv => ?_, fun ⟨hlt, hv⟩ => hv ▸ hin hlt⟩
  by_cases hlt : s.a.toNat < s.field.n
  · exact ⟨hlt, (hin hlt).unique hv⟩
  · exact absurd hv (not_givesResult_of_failed (by decide) (exec_fexp_of_le (Nat.le_of_not_lt hlt)) v)

end

/-- The instance of the examples is legal, and its elements are the numbers below 256. -/
theorem aes_legal (h : s.field = { modulus := 0x11B#64, degree := 8 }) : s.field.legal = true := by
  rw [h]
  exact standard_legal

theorem aes_inField (h : s.field = { modulus := 0x11B#64, degree := 8 }) {v w : Word} (hv : v = w)
    (hw : w.toNat < 256) : inField s v := by
  rw [inField, h, hv]
  exact hw

theorem aesExample_fmul {a b : Word} {v : Nat} (ha : a.toNat < 256) (hb : b.toNat < 256)
    (h : FieldConfig.standard.fprod a.toNat b.toNat = v) : AesExample .fmul a b v :=
  fun s hfield hsa hsb => fmul_givesResult (aes_legal hfield) (aes_inField hfield hsa ha)
    (aes_inField hfield hsb hb) (by rwa [hfield, hsa, hsb])

theorem aesExample_fdiv {a b : Word} {v : Nat} (ha : a.toNat < 256) (hb : b.toNat < 256)
    (hb0 : b ≠ 0#64) (hv : v < 256) (h : FieldConfig.standard.fprod b.toNat v = a.toNat) :
    AesExample .fdiv a b v := fun s hfield hsa hsb =>
  fdiv_givesResult (aes_legal hfield) (aes_inField hfield hsa ha) (aes_inField hfield hsb hb)
    (hsb ▸ hb0) (by rwa [hfield]) (by rwa [hfield, hsa, hsb])

theorem aesExample_finv {a b : Word} {v : Nat} (ha : a.toNat < 256) (hv : v < 256)
    (h : FieldConfig.standard.fprod a.toNat v = 1) : AesExample .finv a b v := fun s hfield hsa _ =>
  finv_givesResult (aes_legal hfield) (aes_inField hfield hsa ha) (by rwa [hfield])
    (by rwa [hfield, hsa])

theorem aesExample_fpow {a b : Word} {v : Nat} (ha : a.toNat < 256)
    (h : FieldConfig.standard.power a.toNat b.toNat = v) : AesExample .fpow a b v :=
  fun s hfield hsa hsb =>
    fpow_givesResult (aes_legal hfield) (aes_inField hfield hsa ha) (by rwa [hfield, hsa, hsb])

theorem aesExample_flog {a b : Word} {k : Nat} (hk : k < 255)
    (h : FieldConfig.standard.alog k = a.toNat) : AesExample .flog a b k := fun s hfield hsa _ =>
  flog_givesResult (aes_legal hfield) (by rwa [hfield]) (by rwa [hfield, hsa])

theorem aesExample_fexp {a b : Word} {v : Nat} (ha : a.toNat < 255)
    (h : FieldConfig.standard.alog a.toNat = v) : AesExample .fexp a b v := fun s hfield hsa _ =>
  (fexp_givesResult_iff (aes_legal hfield)).2 ⟨by rwa [hfield, hsa], by rwa [hfield, hsa]⟩

end Sys2Proof.Claims

open Sys2Proof Sys2Proof.Machine Sys2Proof.Claims

/-- Settles O16. No table is read, and the exclusive OR of two numbers below `2^p` is below it. -/
theorem faddXorsElements : Obligations.FaddXorsElements := by
  refine ⟨nWord_of_shape rfl, fun s => ⟨fun h => ite_elements_of_not h _,
    fun ha hb => ⟨ite_elements ha hb _ _, ?_⟩, fun hfield ha hb => ?_⟩⟩
  · rw [inField, BitVec.toNat_xor]
    exact Nat.xor_lt_two_pow ha hb
  · have hexec : exec .fadd s = writeResult (s.a ^^^ s.b) s :=
      ite_elements (aes_inField hfield ha (by decide)) (aes_inField hfield hb (by decide)) _ _
    exact ⟨s.a ^^^ s.b, by rw [ha, hb]; decide, hexec⟩

/-- Settles O17. The table formula is one end of the command; the corner case and the example are
products of the field. -/
theorem fmulAddsLogarithms : Obligations.FmulAddsLogarithms := by
  refine ⟨nWord_of_shape rfl, fun s hc => ⟨fun h => ite_elements_of_not h _,
    fun ha hb h0 => givesResult_of_writeResult (by decide) (exec_fmul_of_zero ha hb h0),
    fun ha hb ha0 hb0 => alog_givesResult hc (exec_fmul_of_ne_zero ha hb ha0 hb0),
    fun _ ha hb => fmul_givesResult hc ha (hb ▸ inField_one hc) ?_,
    aesExample_fmul (by decide) (by decide) (by decide +kernel)⟩⟩
  rw [hb]
  exact FieldConfig.fprod_one hc ha

/-- Settles O18. The index is the residue of the difference; the corner cases and the examples are
quotients of the field. -/
theorem fdivSubtractsLogarithms : Obligations.FdivSubtractsLogarithms := by
  refine ⟨nWord_of_shape rfl, fun s hc => ⟨fun h => ite_elements_of_not h _,
    exec_fdiv_of_zero_divisor,
    fun hb ha0 hb0 => givesResult_of_writeResult (by decide) (exec_fdiv_of_zero hb ha0 hb0),
    fun ha hb ha0 hb0 => ?_, fun ha ha0 hba => ?_, fun _ ha hb => ?_,
    aesExample_fdiv (by decide) (by decide) (by decide) (by decide) (by decide +kernel),
    aesExample_fdiv (by decide) (by decide) (by decide) (by decide) (by decide +kernel),
    aesExample_fdiv (by decide) (by decide) (by decide) (by decide) (by decide +kernel)⟩⟩
  · obtain ⟨hlt, hindex⟩ := fdiv_index hc (s.field.log s.a.toNat) (s.field.log s.b.toNat)
    obtain ⟨turns, hturns⟩ := exists_emod_eq_add_mul
      ((s.field.log s.a.toNat : Int) - s.field.log s.b.toNat) s.field.n
    exact ⟨_, hlt, ⟨turns, hindex.trans hturns⟩,
      alog_givesResult hc (exec_fdiv_of_ne_zero ha hb ha0 hb0)⟩
  · refine fdiv_givesResult hc ha (hba ▸ ha) (hba ▸ ha0) (inField_one hc) ?_
    rw [hba]
    exact FieldConfig.fprod_one hc ha
  · refine fdiv_givesResult hc ha (hb ▸ inField_one hc) (hb ▸ by decide) ha ?_
    rw [hb, FieldConfig.fprod_comm]
    exact FieldConfig.fprod_one hc ha

/-- Settles O19. `B` is no operand; `A = 1` and the examples are inverses of the field. -/
theorem finvNegatesLogarithm : Obligations.FinvNegatesLogarithm := by
  refine ⟨nWord_of_shape rfl, fun s hc => ⟨fun h => ite_element_of_not h _, exec_finv_of_zero,
    fun ha ha0 => alog_givesResult hc (exec_finv_of_ne_zero ha ha0), fun ha => ?_,
    fun b => ⟨aesExample_finv (by decide) (by decide) (by decide +kernel),
      aesExample_finv (by decide) (by decide) (by decide +kernel)⟩⟩⟩
  refine finv_givesResult hc (ha ▸ inField_one hc) (inField_one hc) ?_
  rw [ha]
  exact FieldConfig.fprod_one hc (inField_one hc)

/-- Settles O20. The three ends of the command on an element; the corner cases and the examples are
powers of the field. -/
theorem fpowMultipliesLogarithm : Obligations.FpowMultipliesLogarithm := by
  refine ⟨nWord_of_shape rfl, fun s hc => ⟨fun h => ite_element_of_not h _,
    fun ha hb0 => givesResult_of_writeResult (by decide) (exec_fpow_of_zero_exponent ha hb0),
    fun ha0 hb0 => givesResult_of_writeResult (by decide) (exec_fpow_of_zero ha0 hb0),
    fun ha ha0 hb0 => alog_givesResult hc (exec_fpow_of_ne_zero ha ha0 hb0),
    fun _ ha hb => fpow_givesResult hc ha ?_, fun ha ha0 hb => fpow_givesResult hc ha ?_,
    fun _ ha => fpow_givesResult hc (ha ▸ inField_one hc) ?_,
    aesExample_fpow (by decide) (by decide +kernel),
    aesExample_fpow (by decide) (by decide +kernel)⟩⟩
  · rw [hb]
    exact FieldConfig.power_one hc ha
  · rw [hb]
    exact FieldConfig.power_n hc ha (toNat_ne_zero ha0)
  · rw [ha]
    exact FieldConfig.one_power hc _

/-- Settles O21. `LOG` has its entries below `N` and answers the index in `ALOG`, whose entries are the
non-zero elements. -/
theorem tableReadsReturnEntries : Obligations.TableReadsReturnEntries := by
  refine ⟨nWord_of_shape rfl, nWord_of_shape rfl, fun s hc => ⟨exec_flog_of_outside,
    fun ha0 ha => ?_, exec_fexp_of_le,
    fun hlt => ⟨(fexp_givesResult_iff hc).2 ⟨hlt, rfl⟩, FieldConfig.alog_lt hc _,
      fun _ => FieldConfig.one_le_alog hc _⟩,
    fun ha => flog_givesResult hc (FieldConfig.n_pos_of_legal hc) (ha ▸ rfl),
    fun ha => (fexp_givesResult_iff hc).2 ⟨ha ▸ FieldConfig.n_pos_of_legal hc, ha ▸ rfl⟩,
    fun _ hp ha => flog_givesResult hc (FieldConfig.one_lt_n hp) ?_,
    fun b => ⟨aesExample_flog (by decide) (by decide +kernel),
      aesExample_flog (by decide) (by decide +kernel),
      aesExample_fexp (by decide) (by decide +kernel),
      aesExample_fexp (by decide) (by decide +kernel)⟩⟩⟩
  · have hlog := FieldConfig.log_lt hc ha (toNat_ne_zero ha0)
    exact ⟨flog_givesResult hc hlog (FieldConfig.alog_log hc ha (toNat_ne_zero ha0)), hlog⟩
  · exact (FieldConfig.power_one hc FieldConfig.generator_lt).trans ha.symm

/-- Settles O56. Adding logarithms mod `N` multiplies the powers of the generator, and a zero operand
makes the product zero. -/
theorem fmulIsReducedProduct : Obligations.FmulIsReducedProduct :=
  fun _ hc _ ha hb => fmul_givesResult hc ha hb rfl

/-- Settles O57. The inverse exists and is unique by cancellation; the quotient by `B` is the product
with the inverse of `B`, for `B` times it is `A`. -/
theorem inverseQuotientAndPower : Obligations.InverseQuotientAndPower := by
  refine fun s hc _ ha => ⟨fun ha0 => ?_, fun hb hb0 => ?_, fpow_givesResult hc ha rfl⟩
  · obtain ⟨v, hv, hinverse⟩ := FieldConfig.exists_fprod_eq_one hc ha (toNat_ne_zero ha0)
    exact ⟨v, hv, hinverse, finv_givesResult hc ha hv hinverse, fun w hw h =>
      FieldConfig.fprod_left_cancel hc ha (toNat_ne_zero ha0) hw hv (h.trans hinverse.symm)⟩
  · obtain ⟨v, hv, hinverse⟩ := FieldConfig.exists_fprod_eq_one hc hb (toNat_ne_zero hb0)
    refine ⟨v, hv, hinverse, fdiv_givesResult hc ha hb hb0 (FieldConfig.fprod_lt hc _ _) ?_⟩
    rw [FieldConfig.fprod_left_comm hc, hinverse, FieldConfig.fprod_one hc ha]

/-- Settles O58. Lagrange's theorem is `power_n`. The product of the inverses of two factors is inverse
to their product, and inverses are unique. `ALOG` has each element at one index. -/
theorem sourcePropertiesOfField : Obligations.SourcePropertiesOfField := by
  refine fun s hc _ ha ha0 =>
    ⟨fun hb => fpow_givesResult hc ha ?_, ?_, fun hb hb0 => ?_, ?_⟩
  · rw [hb]
    exact FieldConfig.power_n hc ha (toNat_ne_zero ha0)
  · obtain ⟨v, hv, hinverse⟩ := exists_word_fprod_eq_one hc ha ha0
    exact ⟨v, finv_givesResult hc ha hv hinverse,
      fmul_givesResult (s := { s with b := v }) hc ha hv hinverse⟩
  · obtain ⟨u, hu, hau⟩ := exists_word_fprod_eq_one hc ha ha0
    obtain ⟨v, hv, hbv⟩ := exists_word_fprod_eq_one hc hb hb0
    obtain ⟨ab, hab⟩ := exists_word_eq hc (FieldConfig.fprod_lt hc s.a.toNat s.b.toNat)
    obtain ⟨w, hw⟩ := exists_word_eq hc (FieldConfig.fprod_lt hc u.toNat v.toNat)
    have hinverse : s.field.fprod ab.toNat w.toNat = 1 := by
      rw [hab, hw, FieldConfig.fprod_assoc hc, FieldConfig.fprod_left_comm hc s.b.toNat, hbv,
        FieldConfig.fprod_one hc hu, hau]
    have habin : inField s ab := hab.trans_lt (FieldConfig.fprod_lt hc _ _)
    have hwin : inField s w := hw.trans_lt (FieldConfig.fprod_lt hc _ _)
    exact ⟨ab, u, v, w, fmul_givesResult hc ha hb hab.symm,
      finv_givesResult (s := { s with a := ab }) hc habin hwin hinverse,
      finv_givesResult hc ha hu hau, finv_givesResult (s := { s with a := s.b }) hc hb hv hbv,
      fmul_givesResult (s := { s with a := u, b := v }) hc hu hv hw.symm⟩
  · have hlog := FieldConfig.log_lt hc ha (toNat_ne_zero ha0)
    have halog := FieldConfig.alog_log hc ha (toNat_ne_zero ha0)
    obtain ⟨index, hindex⟩ := exists_word_eq hc (FieldConfig.le_n_iff.1 hlog.le)
    rw [← hindex] at hlog halog
    refine ⟨index, hlog, (fexp_givesResult_iff (s := { s with a := index }) hc).2 ⟨hlog, halog⟩,
      fun other h => BitVec.eq_of_toNat_eq ?_⟩
    obtain ⟨hlt, hvalue⟩ := (fexp_givesResult_iff (s := { s with a := other }) hc).1 h
    exact FieldConfig.alog_injOn hc hlt hlog (hvalue.trans halog.symm)

end

section
/-! Errors and the status (60_exceptions.md R261 to R268): what a failing word leaves, which command
reports which error, and that `ECODE` holds the first error and stops nothing. -/

namespace Sys2Proof.Claims

open Sys2Proof.Machine

/-- A response with a code comes from the error entry and from nothing else (R266). -/
theorem eq_failed_of_error {s t : State} {rw : Response} (h : Ends s t)
    (hrsp : t.rsp = some rw) (herr : rw.err ≠ 0#4) : t = failed rw.err s := by
  obtain ⟨e, he⟩ | ⟨u, v, -, rfl⟩ := h
  · obtain rfl := raise_eq_next.1 he
    cases hrsp
    rfl
  · cases hrsp
    exact absurd rfl herr

theorem err_le_four_of_legal {rw : Response} (h : rw.legal = true) : rw.err.toNat ≤ 4 := by
  simp only [Response.legal, Bool.and_eq_true, decide_eq_true_eq] at h
  exact h.1

/-- Every code a word returns is one of R260. -/
theorem err_le_four {cw : CommandWord} {s t : State} {rw : Response} (h : execWord cw s = .next t)
    (hrsp : t.rsp = some rw) : rw.err.toNat ≤ 4 :=
  err_le_four_of_legal ((execWord_next_cases h).response_legal rw hrsp)

/-- The error a command meets in a state, with the range check before the test for a zero divisor
(R262 to R265). `exec_responds` ties it to the machine. -/
def errorOf (i : Instr) (s : State) : Option Err :=
  match i with
  | .pred => if s.m = 0#64 then some .zmod else none
  | .fadd | .fmul =>
    if isElement s.field s.a && isElement s.field s.b then none else some .range
  | .fdiv =>
    if isElement s.field s.a && isElement s.field s.b then
      if s.b = 0#64 then some .divz else none
    else some .range
  | .finv =>
    if isElement s.field s.a then if s.a = 0#64 then some .divz else none else some .range
  | .fpow => if isElement s.field s.a then none else some .range
  | .flog => if s.a ≠ 0#64 ∧ isElement s.field s.a then none else some .range
  | .fexp => if s.a.toNat < s.field.n then none else some .range
  | _ => none

/-- The code in the response of a command that meets the error `e`, or none (30_encoding.md R84). -/
def responseCode (e : Option Err) : ErrorCode := e.elim okCode errorCode

theorem responseCode_eq_errorCode_iff {o : Option Err} {e : Err} :
    responseCode o = errorCode e ↔ o = some e := by
  cases o with
  | none => cases e <;> decide
  | some e' => cases e' <;> cases e <;> decide

/-- The end `o` of a command puts the code of `e` on the response port. -/
def Responds (o : Result) (e : Option Err) : Prop :=
  ∀ t, o = .next t → ∀ rw ∈ t.rsp, rw.err = responseCode e

theorem responds_raise (e : Err) (s : State) : Responds (raise e s) (some e) := by
  intro t ht rw hrw
  obtain rfl := raise_eq_next.1 ht
  cases hrw
  rfl

theorem responds_answer (v : Word) (s : State) : Responds (answer v s) none := by
  intro t ht rw hrw
  obtain rfl := answer_eq_next.1 ht
  cases hrw
  rfl

/-- Completion is the answer without data. -/
theorem responds_complete (s : State) : Responds (complete s) none := responds_answer 0#64 s

theorem responds_writeResult (v : Word) (s : State) : Responds (writeResult v s) none :=
  responds_complete (s.setR v)

section

variable {p : Prop} [Decidable p] {x y : Result}

theorem responds_ite {e e' : Option Err} (hx : Responds x e) (hy : Responds y e') :
    Responds (if p then x else y) (if p then e else e') := by
  split <;> assumption

/-- Two ends with one code: the condition does not matter to the response. -/
theorem responds_ite_same {e : Option Err} (hx : Responds x e) (hy : Responds y e) :
    Responds (if p then x else y) e := by
  split <;> assumption

end

/-- One fact about all 33 commands: the response carries the code of the error the command meets. -/
theorem exec_responds (i : Instr) (s : State) : Responds (exec i s) (errorOf i s) := by
  cases i with
  | rdr | rda | rdb | rdm | rdpl | rdph | rdst | rdfm | rdfp | rdfg => exact responds_answer _ s
  | padd => exact responds_writeResult _ s
  | pred => exact responds_ite (responds_raise _ _) (responds_writeResult _ _)
  | pdeg =>
    simp only [exec, execPdeg]
    split <;> exact responds_writeResult _ s
  | pirr p6 => exact responds_ite_same (responds_writeResult _ _) (responds_writeResult _ _)
  | fadd | flog | fexp => exact responds_ite (responds_writeResult _ _) (responds_raise _ _)
  | fmul =>
    exact responds_ite (responds_ite_same (responds_writeResult _ _) (responds_writeResult _ _))
      (responds_raise _ _)
  | fdiv =>
    exact responds_ite (responds_ite (responds_raise _ _)
      (responds_ite_same (responds_writeResult _ _) (responds_writeResult _ _))) (responds_raise _ _)
  | finv =>
    exact responds_ite (responds_ite (responds_raise _ _) (responds_writeResult _ _))
      (responds_raise _ _)
  | fpow =>
    exact responds_ite (responds_ite_same (responds_writeResult _ _)
      (responds_ite_same (responds_writeResult _ _) (responds_writeResult _ _))) (responds_raise _ _)
  | _ => exact responds_complete _

section

variable {i : Instr} {s : State}

theorem groupOrder_eq_n : groupOrder s = s.field.n := rfl

/-- A command of the opcode map never reports `ERR_ILLEGAL` (R261). -/
theorem errorOf_ne_illegal : errorOf i s ≠ some .illegal := by
  cases i <;> simp [errorOf, ite_eq_iff']

/-- R262. -/
theorem errorOf_eq_zmod_iff : errorOf i s = some .zmod ↔ i = .pred ∧ s.m = 0#64 := by
  cases i <;> simp [errorOf, ite_eq_iff']

/-- R263, behind the range check (R265); `A = 0` is in range. -/
theorem errorOf_eq_divz_iff : errorOf i s = some .divz ↔
    (i = .fdiv ∧ inField s s.a ∧ s.b = 0#64) ∨ (i = .finv ∧ s.a = 0#64) := by
  cases i with
  | fdiv =>
    by_cases hb : s.b = 0#64 <;> simp [errorOf, ite_eq_iff', isElement_iff, hb, inField_zero]
  | finv =>
    by_cases ha : s.a = 0#64 <;> simp [errorOf, ite_eq_iff', isElement_iff, ha, inField_zero]
  | _ => simp [errorOf, ite_eq_iff']

/-- R264. -/
theorem errorOf_eq_range_iff : errorOf i s = some .range ↔
    (i ∈ [.fadd, .fmul, .fdiv] ∧ ¬ (inField s s.a ∧ inField s s.b)) ∨
    (i ∈ [.finv, .fpow] ∧ ¬ inField s s.a) ∨
    (i = .flog ∧ (s.a = 0#64 ∨ ¬ inField s s.a)) ∨
    (i = .fexp ∧ groupOrder s ≤ s.a.toNat) := by
  cases i <;>
    simp [errorOf, ite_eq_iff', isElement_iff, groupOrder_eq_n, or_iff_not_imp_left]

end

theorem ecode_mem_readsOf_iff {i : Instr} : Reg.ecode ∈ readsOf i ↔ i = .rdst := by
  cases i <;> simp [readsOf]

theorem ecode_mem_writesOf_iff {i : Instr} : Reg.ecode ∈ writesOf i ↔ i = .clre := by
  cases i <;> simp [writesOf]

/-- A command that succeeds leaves `ECODE` alone, CLRE apart (R268). -/
theorem ecode_of_success {i : Instr} {s t : State} {rw : Response} (hi : i ≠ .clre)
    (h : exec i s = .next t) (hrsp : t.rsp = some rw) (herr : rw.err = 0#4) :
    t.ecode = s.ecode := by
  obtain ⟨-, hkeeps, -⟩ := accessMatrix
  exact Reg.value_ecode_inj.1 (hkeeps i s t rw .ecode h hrsp herr (mt ecode_mem_writesOf_iff.1 hi))

theorem Reg.value_setEcode {reg : Reg} (h : reg ≠ .ecode) (s : State) (code : ErrorCode) :
    reg.value (s.setEcode code) = reg.value s :=
  (writes_setEcode code).1 s reg (by simpa using h)

/-- States that agree on the registers but `ECODE`, on the instance and on the host's side differ in
`ECODE` and in the pending response at most. -/
theorem eq_but_status {t u : State} (hreg : ∀ reg ≠ Reg.ecode, reg.value t = reg.value u)
    (hfield : t.field = u.field) (hinputs : t.inputs = u.inputs)
    (hdelivered : t.delivered = u.delivered) : t = { u with ecode := t.ecode, rsp := t.rsp } :=
  State.eq_of_fields hfield (Reg.value_a_inj.1 (hreg .a (by decide)))
    (Reg.value_b_inj.1 (hreg .b (by decide))) (Reg.value_m_inj.1 (hreg .m (by decide)))
    (pr_eq_of_halves (Reg.value_prl_inj.1 (hreg .prl (by decide)))
      (Reg.value_prh_inj.1 (hreg .prh (by decide))))
    (Reg.value_r_inj.1 (hreg .r (by decide))) rfl rfl hinputs hdelivered

/-- Two runs that end alike, from states that differ in `ECODE` alone, leave the other registers
equal: a register is written alike in both, or in neither. -/
theorem EndAlike.value_eq {W : List Reg} {s t u : State} {code : ErrorCode}
    (h : EndAlike W s (s.setEcode code) (.next t) (.next u)) {reg : Reg} (hreg : reg ≠ .ecode) :
    reg.value t = reg.value u := by
  obtain ⟨e, ht, hu⟩ | ⟨f, v, hf, ht, hu⟩ := h
  · rw [raise_eq_next.1 ht.symm, raise_eq_next.1 hu.symm]
    simp only [Reg.value_setRsp, Reg.value_setEcode hreg]
  · rw [answer_eq_next.1 ht.symm, answer_eq_next.1 hu.symm, Reg.value_setRsp, Reg.value_setRsp]
    by_cases hW : reg ∈ W
    · exact hf.2 _ _ reg hW
    · rw [hf.1 _ reg hW, hf.1 _ reg hW, Reg.value_setEcode hreg]

/-- A command that does not read `ECODE` runs alike whatever it holds (R267). -/
theorem exec_endAlike_setEcode {i : Instr} (hi : i ≠ .rdst) (s : State) (code : ErrorCode) :
    EndAlike (writesOf i) s (s.setEcode code) (exec i s) (exec i (s.setEcode code)) := by
  refine exec_endAlike i rfl fun reg hreads => (Reg.value_setEcode ?_ s code).symm
  rintro rfl
  exact hi (ecode_mem_readsOf_iff.1 hreads)

end Sys2Proof.Claims

open Sys2Proof Sys2Proof.Machine Sys2Proof.Claims

/-- Settles O22. Of the ways a word can end only the error entry returns a code. -/
theorem errorWritesNothingButStatus : Obligations.ErrorWritesNothingButStatus :=
  fun _ _ _ _ hnext hrsp herr =>
    ⟨eq_failed_of_error (execWord_next_cases hnext) hrsp herr, err_le_four hnext hrsp⟩

/-- Settles O23. A word that selects no command reports code 1; a command reports the code of
`errorOf`, which is read off for each error. -/
theorem errorCausesAndPriority : Obligations.ErrorCausesAndPriority := by
  intro cw s t rw hnext hrsp
  have hle := err_le_four hnext hrsp
  cases hdecode : decode cw with
  | error e =>
    rw [execWord_of_illegal_failed hdecode] at hnext
    cases hnext
    cases hrsp
    simp
  | ok i =>
    rw [execWord_of_decode hdecode] at hnext
    have hcode (e : Err) : rw.err = errorCode e ↔ errorOf i s = some e := by
      rw [exec_responds i s t hnext rw hrsp]
      exact responseCode_eq_errorCode_iff
    refine ⟨(hcode .illegal).trans ?_, (hcode .zmod).trans ?_, (hcode .divz).trans ?_,
      (hcode .range).trans ?_, hle⟩
    · simp [errorOf_ne_illegal]
    · simp [errorOf_eq_zmod_iff]
    · simp [errorOf_eq_divz_iff]
    · simp [errorOf_eq_range_iff]

/-- Settles O24. CLRE is the one word that clears the status; an error entry latches, and a success
of another command keeps `ECODE`. -/
theorem statusHoldsFirstError : Obligations.StatusHoldsFirstError := by
  refine fun cw s t rw hnext hrsp => ⟨fun hclre => ?_, fun hclre => ?_⟩
  · rw [execWord_of_decode hclre] at hnext
    exact clearStatus_eq_next.1 hnext
  · cases hdecode : decode cw with
    | error e =>
      rw [execWord_of_illegal_failed hdecode] at hnext
      cases hnext
      cases hrsp
      rfl
    | ok i =>
      rw [execWord_of_decode hdecode] at hnext
      by_cases herr : rw.err = 0#4
      · rw [ecode_of_success (fun hi => hclre (hi ▸ hdecode)) hnext hrsp herr, herr]
        exact (ite_eq_right_iff.2 Eq.symm).symm
      · rw [eq_failed_of_error (exec_next_cases hnext) hrsp herr]
        rfl

/-- Settles O25. The error entry looks at `ECODE` only to latch, RDST only to answer with it, and no
other command reads it. -/
theorem statusBlocksNothing : Obligations.StatusBlocksNothing := by
  intro cw s code
  cases hdecode : decode cw with
  | error e =>
    exact ⟨_, _, execWord_of_illegal_failed hdecode s, execWord_of_illegal_failed hdecode _, rfl,
      fun _ => rfl⟩
  | ok i =>
    rw [execWord_of_decode hdecode, execWord_of_decode hdecode]
    by_cases hi : i = .rdst
    · subst hi
      exact ⟨_, _, rfl, rfl, rfl, fun h => absurd rfl h⟩
    · obtain ⟨t, ht, htends⟩ := exec_ends i s
      obtain ⟨u, hu, huends⟩ := exec_ends i (s.setEcode code)
      have halike := exec_endAlike_setEcode hi s code
      rw [ht, hu] at halike
      obtain ⟨htfield, htinputs, htdelivered⟩ := htends.frame
      obtain ⟨hufield, huinputs, hudelivered⟩ := huends.frame
      exact ⟨t, u, ht, hu, eq_but_status (fun reg => halike.value_eq)
        (htfield.trans hufield.symm) (htinputs.trans huinputs.symm)
        (htdelivered.trans hudelivered.symm), fun _ => halike.rsp_eq⟩

end

section
/-! Reset and the host's other moves at the level of a step (70_reset_and_hazards.md R290 to R292,
R300 to R302): a reset cycle, a silent host, and a host that leaves a response untaken. -/

namespace Sys2Proof.Machine

section

variable {input : PortInput} {s : State}

theorem step_of_nil (hlegal : s.field.legal = true) (hinputs : s.inputs = []) :
    step s = .next s := by
  simp [step, nextCycle, hlegal, hinputs]

theorem cycle_of_reset (hrst : input.rst = true) : cycle input s = .next (resetUnit s) := by
  simp [cycle, hrst]

/-- While `rst` is 1 the unit is closed on both ports (70_reset_and_hazards.md R290). -/
theorem ports_closed_in_reset (s : State) :
    cmdReady true s = false ∧ rspValid true s = false ∧ rspWord true s = none :=
  ⟨rfl, rfl, rfl⟩

/-- A cycle that does not take the pending response passes and changes nothing, whatever the host
presents in it. -/
theorem step_of_untaken {rw : Response} (rest : List PortInput) (hlegal : s.field.legal = true)
    (hrsp : s.rsp = some rw) (hrst : input.rst = false) (hready : input.rspReady = false) :
    step (s.setInputs (input :: rest)) = .next (s.setInputs rest) := by
  have hcycle := cycle_of_pending (s := s.setInputs rest) hrst hrsp
  rw [hready] at hcycle
  exact (step_of_cons (s := s.setInputs (input :: rest)) hlegal rfl).trans hcycle

end

/-- The stall of 70_reset_and_hazards.md R300, over the cycles of a host that neither resets nor takes
the response. The state before is written with its cycles put in, so that it is one state `s`
throughout the induction. -/
theorem run_of_untaken {s : State} {rw : Response} (hlegal : s.field.legal = true)
    (hrsp : s.rsp = some rw) (inputs : List PortInput) (hreset : noReset inputs = true)
    (huntaken : ∀ input ∈ inputs, input.rspReady = false) :
    Host.Core.run core inputs.length (s.setInputs inputs) = .next (s.setInputs []) := by
  induction inputs with
  | nil => rfl
  | cons input rest ih =>
    obtain ⟨hrst, hrest⟩ : input.rst = false ∧ noReset rest = true := by
      simpa [noReset] using hreset
    obtain ⟨hready, huntaken'⟩ := List.forall_mem_cons.1 huntaken
    exact (run_succ rest.length (step_of_untaken rest hlegal hrsp hrst hready)).trans
      (ih hrest huntaken')

end Sys2Proof.Machine

open Sys2Proof.Machine

/-- Settles O39. Induction over the cycles: each one leaves the response pending, so the next one finds
the command port closed again. -/
theorem untakenResponseStallsUnit : Obligations.UntakenResponseStallsUnit :=
  fun s _ hlegal hrsp hreset huntaken => run_of_untaken hlegal hrsp s.inputs hreset huntaken

/-- Settles O2. The step is the cycle of a reset, and both ports are closed in it. -/
theorem resetCycleAbandonsEverything : Obligations.ResetCycleAbandonsEverything := by
  intro s input rest hlegal hinputs hrst
  refine ⟨(step_of_cons hlegal hinputs).trans (cycle_of_reset hrst), ?_⟩
  rw [hrst]
  exact ports_closed_in_reset s

/-- Settles O38. A silent host has no cycle to come, or an idle one. -/
theorem silentHostLeavesUnitIdle : Obligations.SilentHostLeavesUnitIdle := by
  refine fun s hlegal => ⟨step_of_nil hlegal, fun input rest hinputs hrst hvalid hrsp => ?_⟩
  exact (step_of_cons hlegal hinputs).trans
    (cycle_of_idle (s := s.setInputs rest) hrst hrsp hvalid)

end
